-- ==== Sys2Proof/Word.lean ====
section
/-! DEFINITION. The two word types of the CT8 core. -/

namespace Sys2Proof

/-- A register, a memory cell, a timer or a flag cell: 8 bits (R20, R25, R27, R29). -/
abbrev Byte := BitVec 8

/-- `I`, `PC`, a stack entry or an instruction word: 16 bits (R22, R23, R26, R80). -/
abbrev Word := BitVec 16

/-- The number of a general register, 0 to 15 (R20). -/
abbrev Reg := Fin 16

end Sys2Proof
end

