-- ==== Sys2Proof/Machine/Flags.lean ====
section
/-! DEFINITION. The values that instructions put into `VF`, the one flag of the machine (R21). Sums
and differences are mathematical integers, compared before they are reduced (R12, R150). -/

namespace Sys2Proof.Machine

/-- `1 if c else 0`. -/
def flagByte (c : Bool) : Byte := if c then 1 else 0

/-- Carry: 1 iff the unreduced sum is at least 256 (R158). -/
def carryFlag (sum : Nat) : Byte := flagByte (decide (256 ≤ sum))

/-- No borrow: 0 iff the unreduced difference is negative (R159, R161). -/
def noBorrowFlag (diff : Int) : Byte := flagByte (!decide (diff < 0))

/-- The bit that a right shift pushes out: bit 0 (R160). -/
def bitShiftedRight (b : Byte) : Byte := b &&& 1

/-- The bit that a left shift pushes out: bit 7 (R162). -/
def bitShiftedLeft (b : Byte) : Byte := b >>> 7

/-- 12-bit overflow of the address sum: 1 iff the unreduced sum exceeds `0xFFF` (R181). -/
def addressOverflowFlag (sum : Nat) : Byte := flagByte (decide (0xFFF < sum))

/-- Collision of a sprite (R202, R204). -/
def collisionFlag (collided : Bool) : Byte := flagByte collided

end Sys2Proof.Machine
end

