-- ==== Sys2Proof/Syntax.lean ====
section
/-! DEFINITION. The 36 instructions (30_encoding.md R83, R95; opcode_table.json), one constructor per
row of the opcode table, in the table's order. Operands as R84 gives them: `x`, `y` register numbers,
`kk` an 8-bit, `nnn` a 12-bit and `n` a 4-bit unsigned value. -/

namespace Sys2Proof

inductive Instr where
  /-- `00E0` `CLEAR_SCREEN` -/
  | clearScreen
  /-- `00EE` `RETURN` -/
  | ret
  /-- `1nnn` `JUMP nnn` -/
  | jump (nnn : BitVec 12)
  /-- `2nnn` `CALL nnn` -/
  | call (nnn : BitVec 12)
  /-- `3xkk` `SKIP_EQ_IMM Vx, kk` -/
  | skipEqImm (x : Reg) (kk : Byte)
  /-- `4xkk` `SKIP_NE_IMM Vx, kk` -/
  | skipNeImm (x : Reg) (kk : Byte)
  /-- `5xy0` `SKIP_EQ_REG Vx, Vy` -/
  | skipEqReg (x y : Reg)
  /-- `6xkk` `SET_IMM Vx, kk` -/
  | setImm (x : Reg) (kk : Byte)
  /-- `7xkk` `ADD_IMM Vx, kk` -/
  | addImm (x : Reg) (kk : Byte)
  /-- `8xy0` `MOV Vx, Vy` -/
  | mov (x y : Reg)
  /-- `8xy1` `OR Vx, Vy` -/
  | orReg (x y : Reg)
  /-- `8xy2` `AND Vx, Vy` -/
  | andReg (x y : Reg)
  /-- `8xy3` `XOR Vx, Vy` -/
  | xorReg (x y : Reg)
  /-- `8xy4` `ADD_REG Vx, Vy` -/
  | addReg (x y : Reg)
  /-- `8xy5` `SUB_REG Vx, Vy` -/
  | subReg (x y : Reg)
  /-- `8xy6` `SHIFT_RIGHT Vx, Vy` -/
  | shiftRight (x y : Reg)
  /-- `8xy7` `SUB_REV Vx, Vy` -/
  | subRev (x y : Reg)
  /-- `8xyE` `SHIFT_LEFT Vx, Vy` -/
  | shiftLeft (x y : Reg)
  /-- `9xy0` `SKIP_NE_REG Vx, Vy` -/
  | skipNeReg (x y : Reg)
  /-- `Annn` `SET_I nnn` -/
  | setI (nnn : BitVec 12)
  /-- `Bnnn` `JUMP_OFFSET nnn` -/
  | jumpOffset (nnn : BitVec 12)
  /-- `Cxkk` `RAND_AND Vx, kk` -/
  | randAnd (x : Reg) (kk : Byte)
  /-- `Dxyn` `DRAW Vx, Vy, n` -/
  | draw (x y : Reg) (n : Fin 16)
  /-- `Ex9E` `SKIP_KEY_DOWN Vx` -/
  | skipKeyDown (x : Reg)
  /-- `ExA1` `SKIP_KEY_UP Vx` -/
  | skipKeyUp (x : Reg)
  /-- `Fx07` `GET_DELAY Vx` -/
  | getDelay (x : Reg)
  /-- `Fx0A` `WAIT_KEY Vx` -/
  | waitKey (x : Reg)
  /-- `Fx15` `SET_DELAY Vx` -/
  | setDelay (x : Reg)
  /-- `Fx18` `SET_SOUND Vx` -/
  | setSound (x : Reg)
  /-- `Fx1E` `ADD_TO_I Vx` -/
  | addToI (x : Reg)
  /-- `Fx29` `FONT_PTR Vx` -/
  | fontPtr (x : Reg)
  /-- `Fx33` `BCD_STORE Vx` -/
  | bcdStore (x : Reg)
  /-- `Fx55` `REG_DUMP Vx` -/
  | regDump (x : Reg)
  /-- `Fx65` `REG_LOAD Vx` -/
  | regLoad (x : Reg)
  /-- `Fx75` `FLAGS_SAVE Vx`, `x` in 0..7 only (WellFormed) -/
  | flagsSave (x : Reg)
  /-- `Fx85` `FLAGS_LOAD Vx`, `x` in 0..7 only (WellFormed) -/
  | flagsLoad (x : Reg)
  deriving DecidableEq, Repr

end Sys2Proof
end

