-- ==== Sys2Proof/WellFormed.lean ====
section
/-! DEFINITION. Which terms of `Instr` are instructions. Every operand's width is in its type; what
is left to check is the restriction of `FLAGS_SAVE` and `FLAGS_LOAD` to `x <= 7` (30_encoding.md R83,
R92; opcode_table.json's rows with bit 11 fixed at 0). -/

namespace Sys2Proof

/-- The flag-cell transfers reach the eight cells `FLG[0..7]` only (R92). -/
def flagCellOperandOk (x : Reg) : Bool := decide (x.val ≤ 7)

/-- One check per constructor, no wildcard. -/
def Instr.wellFormed : Instr → Bool
  | .clearScreen | .ret | .jump _ | .call _ => true
  | .skipEqImm _ _ | .skipNeImm _ _ | .skipEqReg _ _ => true
  | .setImm _ _ | .addImm _ _ | .mov _ _ => true
  | .orReg _ _ | .andReg _ _ | .xorReg _ _ => true
  | .addReg _ _ | .subReg _ _ | .shiftRight _ _ | .subRev _ _ | .shiftLeft _ _ => true
  | .skipNeReg _ _ | .setI _ | .jumpOffset _ | .randAnd _ _ | .draw _ _ _ => true
  | .skipKeyDown _ | .skipKeyUp _ => true
  | .getDelay _ | .waitKey _ | .setDelay _ | .setSound _ => true
  | .addToI _ | .fontPtr _ | .bcdStore _ | .regDump _ | .regLoad _ => true
  | .flagsSave x => flagCellOperandOk x
  | .flagsLoad x => flagCellOperandOk x

/-- The check as a proposition. -/
abbrev WellFormed (i : Instr) : Prop := i.wellFormed = true

end Sys2Proof
end

