-- ==== Sys2Proof/Decode.lean ====
section
/-! DEFINITION. The decoder (30_encoding.md R80 to R94), the encoder written from the same patterns,
and the opcode table as data (R98). A word has one meaning, whatever the machine's state (R85). -/

namespace Sys2Proof

/-! ## Fields of the instruction word (R82) -/

/-- `w[15:12]`, the coarse family. -/
def fieldOp (w : Word) : Nat := (w.extractLsb' 12 4).toNat

/-- `w[11:8]`, the first register number. -/
def fieldX (w : Word) : Reg := (w.extractLsb' 8 4).toFin

/-- `w[7:4]`, the second register number. -/
def fieldY (w : Word) : Reg := (w.extractLsb' 4 4).toFin

/-- `w[3:0]`, the sprite height or the sub-operation of families 5, 8 and 9. -/
def fieldN (w : Word) : Fin 16 := (w.extractLsb' 0 4).toFin

/-- `w[7:0]`, the immediate or the sub-operation of families E and F. -/
def fieldKk (w : Word) : Byte := w.extractLsb' 0 8

/-- `w[11:0]`, the 12-bit address. -/
def fieldNnn (w : Word) : BitVec 12 := w.extractLsb' 0 12

/-- Why a word or a byte sequence is no instruction: the classes of R92's list. -/
inductive Rejection where
  /-- `0x0000..0x0FFF` except `0x00E0` and `0x00EE` (R86) -/
  | familyZero
  /-- `5xyN`, `N` in 1..15 (R88) -/
  | familyFive
  /-- `8xyN`, `N` in 8..D or F (R89) -/
  | familyEight
  /-- `9xyN`, `N` in 1..15 (R88) -/
  | familyNine
  /-- `Exkk`, `kk` not in 9E, A1 (R90) -/
  | familyE
  /-- `Fxkk`, `kk` not in the eleven sub-operations (R91) -/
  | familyF
  /-- `Fx75`, `Fx85` with `x` in 8..15 (R92) -/
  | flagCellsPastSeven
  /-- Fewer than the two bytes that every instruction has (R80) -/
  | fewerThanTwoBytes
  deriving DecidableEq, Repr

/-- What the decoder answers. -/
inductive Decoded where
  | instr (i : Instr)
  | rejected (r : Rejection)
  deriving DecidableEq, Repr

/-- Family 0, matched on the full word (R86). -/
def decodeZero (w : Word) : Decoded :=
  if w = 0x00E0#16 then .instr .clearScreen
  else if w = 0x00EE#16 then .instr .ret
  else .rejected .familyZero

/-- Family 8, matched on `w[3:0]` (R89). -/
def decodeEight (w : Word) : Decoded :=
  match (fieldN w).val with
  | 0x0 => .instr (.mov (fieldX w) (fieldY w))
  | 0x1 => .instr (.orReg (fieldX w) (fieldY w))
  | 0x2 => .instr (.andReg (fieldX w) (fieldY w))
  | 0x3 => .instr (.xorReg (fieldX w) (fieldY w))
  | 0x4 => .instr (.addReg (fieldX w) (fieldY w))
  | 0x5 => .instr (.subReg (fieldX w) (fieldY w))
  | 0x6 => .instr (.shiftRight (fieldX w) (fieldY w))
  | 0x7 => .instr (.subRev (fieldX w) (fieldY w))
  | 0xE => .instr (.shiftLeft (fieldX w) (fieldY w))
  | _ => .rejected .familyEight

/-- Family E, matched on `w[7:0]` (R90). -/
def decodeE (w : Word) : Decoded :=
  if fieldKk w = 0x9E#8 then .instr (.skipKeyDown (fieldX w))
  else if fieldKk w = 0xA1#8 then .instr (.skipKeyUp (fieldX w))
  else .rejected .familyE

/-- Family F, matched on `w[7:0]`; the flag-cell transfers need `x <= 7` (R91, R92). -/
def decodeF (w : Word) : Decoded :=
  if fieldKk w = 0x07#8 then .instr (.getDelay (fieldX w))
  else if fieldKk w = 0x0A#8 then .instr (.waitKey (fieldX w))
  else if fieldKk w = 0x15#8 then .instr (.setDelay (fieldX w))
  else if fieldKk w = 0x18#8 then .instr (.setSound (fieldX w))
  else if fieldKk w = 0x1E#8 then .instr (.addToI (fieldX w))
  else if fieldKk w = 0x29#8 then .instr (.fontPtr (fieldX w))
  else if fieldKk w = 0x33#8 then .instr (.bcdStore (fieldX w))
  else if fieldKk w = 0x55#8 then .instr (.regDump (fieldX w))
  else if fieldKk w = 0x65#8 then .instr (.regLoad (fieldX w))
  else if fieldKk w = 0x75#8 then
    if flagCellOperandOk (fieldX w) then .instr (.flagsSave (fieldX w)) else .rejected .flagCellsPastSeven
  else if fieldKk w = 0x85#8 then
    if flagCellOperandOk (fieldX w) then .instr (.flagsLoad (fieldX w)) else .rejected .flagCellsPastSeven
  else .rejected .familyF

/-- The decoder, total on all 65536 words (R85, R87, R88). -/
def decode (w : Word) : Decoded :=
  match fieldOp w with
  | 0x0 => decodeZero w
  | 0x1 => .instr (.jump (fieldNnn w))
  | 0x2 => .instr (.call (fieldNnn w))
  | 0x3 => .instr (.skipEqImm (fieldX w) (fieldKk w))
  | 0x4 => .instr (.skipNeImm (fieldX w) (fieldKk w))
  | 0x5 => if (fieldN w).val = 0 then .instr (.skipEqReg (fieldX w) (fieldY w)) else .rejected .familyFive
  | 0x6 => .instr (.setImm (fieldX w) (fieldKk w))
  | 0x7 => .instr (.addImm (fieldX w) (fieldKk w))
  | 0x8 => decodeEight w
  | 0x9 => if (fieldN w).val = 0 then .instr (.skipNeReg (fieldX w) (fieldY w)) else .rejected .familyNine
  | 0xA => .instr (.setI (fieldNnn w))
  | 0xB => .instr (.jumpOffset (fieldNnn w))
  | 0xC => .instr (.randAnd (fieldX w) (fieldKk w))
  | 0xD => .instr (.draw (fieldX w) (fieldY w) (fieldN w))
  | 0xE => decodeE w
  | _ => decodeF w

/-- Two bytes make a word, the byte at the lower address in bits 15 to 8 (R53, R81). -/
def wordOfBytes (hi lo : Byte) : Word := hi ++ lo

/-- The bytes of a word in the order in which memory holds them. -/
def highByte (w : Word) : Byte := w.extractLsb' 8 8

def lowByte (w : Word) : Byte := w.extractLsb' 0 8

/-- The decoder on any bytes: what the first two decode to, and the rest. -/
def decodeBytes : List Byte → Decoded × List Byte
  | hi :: lo :: rest => (decode (wordOfBytes hi lo), rest)
  | bytes => (.rejected .fewerThanTwoBytes, bytes)

/-! ## The encoder: formats A, XK, XY, XYN and X of R83 -/

def encodeA (op : Nat) (nnn : BitVec 12) : Word := BitVec.ofNat 16 (op * 0x1000 + nnn.toNat)

def encodeXK (op : Nat) (x : Reg) (kk : Byte) : Word :=
  BitVec.ofNat 16 (op * 0x1000 + x.val * 0x100 + kk.toNat)

def encodeXYN (op : Nat) (x y : Reg) (n : Nat) : Word :=
  BitVec.ofNat 16 (op * 0x1000 + x.val * 0x100 + y.val * 0x10 + n)

def encodeX (op : Nat) (x : Reg) (sub : Nat) : Word :=
  BitVec.ofNat 16 (op * 0x1000 + x.val * 0x100 + sub)

/-- "by placing the fixed bits of its pattern and the operand fields" (R96). -/
def encode : Instr → Word
  | .clearScreen => 0x00E0#16
  | .ret => 0x00EE#16
  | .jump nnn => encodeA 0x1 nnn
  | .call nnn => encodeA 0x2 nnn
  | .skipEqImm x kk => encodeXK 0x3 x kk
  | .skipNeImm x kk => encodeXK 0x4 x kk
  | .skipEqReg x y => encodeXYN 0x5 x y 0x0
  | .setImm x kk => encodeXK 0x6 x kk
  | .addImm x kk => encodeXK 0x7 x kk
  | .mov x y => encodeXYN 0x8 x y 0x0
  | .orReg x y => encodeXYN 0x8 x y 0x1
  | .andReg x y => encodeXYN 0x8 x y 0x2
  | .xorReg x y => encodeXYN 0x8 x y 0x3
  | .addReg x y => encodeXYN 0x8 x y 0x4
  | .subReg x y => encodeXYN 0x8 x y 0x5
  | .shiftRight x y => encodeXYN 0x8 x y 0x6
  | .subRev x y => encodeXYN 0x8 x y 0x7
  | .shiftLeft x y => encodeXYN 0x8 x y 0xE
  | .skipNeReg x y => encodeXYN 0x9 x y 0x0
  | .setI nnn => encodeA 0xA nnn
  | .jumpOffset nnn => encodeA 0xB nnn
  | .randAnd x kk => encodeXK 0xC x kk
  | .draw x y n => encodeXYN 0xD x y n.val
  | .skipKeyDown x => encodeX 0xE x 0x9E
  | .skipKeyUp x => encodeX 0xE x 0xA1
  | .getDelay x => encodeX 0xF x 0x07
  | .waitKey x => encodeX 0xF x 0x0A
  | .setDelay x => encodeX 0xF x 0x15
  | .setSound x => encodeX 0xF x 0x18
  | .addToI x => encodeX 0xF x 0x1E
  | .fontPtr x => encodeX 0xF x 0x29
  | .bcdStore x => encodeX 0xF x 0x33
  | .regDump x => encodeX 0xF x 0x55
  | .regLoad x => encodeX 0xF x 0x65
  | .flagsSave x => encodeX 0xF x 0x75
  | .flagsLoad x => encodeX 0xF x 0x85

/-- The two bytes of an instruction as memory holds them, lowest address first. -/
def encodeBytes (i : Instr) : List Byte := [highByte (encode i), lowByte (encode i)]

/-! ## The opcode table as data (R98) -/

/-- One row of opcode_table.json: a word selects it iff `(w & mask) = pattern`. -/
structure OpcodeRow where
  mnemonic : String
  pattern : Word
  mask : Word
  deriving DecidableEq, Repr

/-- Whether a word selects a row. -/
def OpcodeRow.selects (r : OpcodeRow) (w : Word) : Bool := w &&& r.mask == r.pattern

/-- The row of each instruction. -/
def rowOf : Instr → OpcodeRow
  | .clearScreen => ⟨"CLEAR_SCREEN", 0x00E0, 0xFFFF⟩
  | .ret => ⟨"RETURN", 0x00EE, 0xFFFF⟩
  | .jump _ => ⟨"JUMP", 0x1000, 0xF000⟩
  | .call _ => ⟨"CALL", 0x2000, 0xF000⟩
  | .skipEqImm _ _ => ⟨"SKIP_EQ_IMM", 0x3000, 0xF000⟩
  | .skipNeImm _ _ => ⟨"SKIP_NE_IMM", 0x4000, 0xF000⟩
  | .skipEqReg _ _ => ⟨"SKIP_EQ_REG", 0x5000, 0xF00F⟩
  | .setImm _ _ => ⟨"SET_IMM", 0x6000, 0xF000⟩
  | .addImm _ _ => ⟨"ADD_IMM", 0x7000, 0xF000⟩
  | .mov _ _ => ⟨"MOV", 0x8000, 0xF00F⟩
  | .orReg _ _ => ⟨"OR", 0x8001, 0xF00F⟩
  | .andReg _ _ => ⟨"AND", 0x8002, 0xF00F⟩
  | .xorReg _ _ => ⟨"XOR", 0x8003, 0xF00F⟩
  | .addReg _ _ => ⟨"ADD_REG", 0x8004, 0xF00F⟩
  | .subReg _ _ => ⟨"SUB_REG", 0x8005, 0xF00F⟩
  | .shiftRight _ _ => ⟨"SHIFT_RIGHT", 0x8006, 0xF00F⟩
  | .subRev _ _ => ⟨"SUB_REV", 0x8007, 0xF00F⟩
  | .shiftLeft _ _ => ⟨"SHIFT_LEFT", 0x800E, 0xF00F⟩
  | .skipNeReg _ _ => ⟨"SKIP_NE_REG", 0x9000, 0xF00F⟩
  | .setI _ => ⟨"SET_I", 0xA000, 0xF000⟩
  | .jumpOffset _ => ⟨"JUMP_OFFSET", 0xB000, 0xF000⟩
  | .randAnd _ _ => ⟨"RAND_AND", 0xC000, 0xF000⟩
  | .draw _ _ _ => ⟨"DRAW", 0xD000, 0xF000⟩
  | .skipKeyDown _ => ⟨"SKIP_KEY_DOWN", 0xE09E, 0xF0FF⟩
  | .skipKeyUp _ => ⟨"SKIP_KEY_UP", 0xE0A1, 0xF0FF⟩
  | .getDelay _ => ⟨"GET_DELAY", 0xF007, 0xF0FF⟩
  | .waitKey _ => ⟨"WAIT_KEY", 0xF00A, 0xF0FF⟩
  | .setDelay _ => ⟨"SET_DELAY", 0xF015, 0xF0FF⟩
  | .setSound _ => ⟨"SET_SOUND", 0xF018, 0xF0FF⟩
  | .addToI _ => ⟨"ADD_TO_I", 0xF01E, 0xF0FF⟩
  | .fontPtr _ => ⟨"FONT_PTR", 0xF029, 0xF0FF⟩
  | .bcdStore _ => ⟨"BCD_STORE", 0xF033, 0xF0FF⟩
  | .regDump _ => ⟨"REG_DUMP", 0xF055, 0xF0FF⟩
  | .regLoad _ => ⟨"REG_LOAD", 0xF065, 0xF0FF⟩
  | .flagsSave _ => ⟨"FLAGS_SAVE", 0xF075, 0xF8FF⟩
  | .flagsLoad _ => ⟨"FLAGS_LOAD", 0xF085, 0xF8FF⟩

/-- The rows of families 0 to 7. -/
def opcodeRowsLow : List OpcodeRow := [
  ⟨"CLEAR_SCREEN", 0x00E0, 0xFFFF⟩,
  ⟨"RETURN", 0x00EE, 0xFFFF⟩,
  ⟨"JUMP", 0x1000, 0xF000⟩,
  ⟨"CALL", 0x2000, 0xF000⟩,
  ⟨"SKIP_EQ_IMM", 0x3000, 0xF000⟩,
  ⟨"SKIP_NE_IMM", 0x4000, 0xF000⟩,
  ⟨"SKIP_EQ_REG", 0x5000, 0xF00F⟩,
  ⟨"SET_IMM", 0x6000, 0xF000⟩,
  ⟨"ADD_IMM", 0x7000, 0xF000⟩]

/-- The rows of families 8 to D. -/
def opcodeRowsMiddle : List OpcodeRow := [
  ⟨"MOV", 0x8000, 0xF00F⟩,
  ⟨"OR", 0x8001, 0xF00F⟩,
  ⟨"AND", 0x8002, 0xF00F⟩,
  ⟨"XOR", 0x8003, 0xF00F⟩,
  ⟨"ADD_REG", 0x8004, 0xF00F⟩,
  ⟨"SUB_REG", 0x8005, 0xF00F⟩,
  ⟨"SHIFT_RIGHT", 0x8006, 0xF00F⟩,
  ⟨"SUB_REV", 0x8007, 0xF00F⟩,
  ⟨"SHIFT_LEFT", 0x800E, 0xF00F⟩,
  ⟨"SKIP_NE_REG", 0x9000, 0xF00F⟩,
  ⟨"SET_I", 0xA000, 0xF000⟩,
  ⟨"JUMP_OFFSET", 0xB000, 0xF000⟩,
  ⟨"RAND_AND", 0xC000, 0xF000⟩,
  ⟨"DRAW", 0xD000, 0xF000⟩]

/-- The rows of families E and F. -/
def opcodeRowsHigh : List OpcodeRow := [
  ⟨"SKIP_KEY_DOWN", 0xE09E, 0xF0FF⟩,
  ⟨"SKIP_KEY_UP", 0xE0A1, 0xF0FF⟩,
  ⟨"GET_DELAY", 0xF007, 0xF0FF⟩,
  ⟨"WAIT_KEY", 0xF00A, 0xF0FF⟩,
  ⟨"SET_DELAY", 0xF015, 0xF0FF⟩,
  ⟨"SET_SOUND", 0xF018, 0xF0FF⟩,
  ⟨"ADD_TO_I", 0xF01E, 0xF0FF⟩,
  ⟨"FONT_PTR", 0xF029, 0xF0FF⟩,
  ⟨"BCD_STORE", 0xF033, 0xF0FF⟩,
  ⟨"REG_DUMP", 0xF055, 0xF0FF⟩,
  ⟨"REG_LOAD", 0xF065, 0xF0FF⟩,
  ⟨"FLAGS_SAVE", 0xF075, 0xF8FF⟩,
  ⟨"FLAGS_LOAD", 0xF085, 0xF8FF⟩]

/-- The 36 rows in the table's order. -/
def opcodeTable : List OpcodeRow := opcodeRowsLow ++ opcodeRowsMiddle ++ opcodeRowsHigh

/-! ## The host's view of the decoder -/

/-- What the decoder reads from the bits `w` of an instruction word, the bits above `nbits` zero:
laid out as memory holds them, high byte first (R53), and given to the decoder. -/
def decodeTableWord (nbits w : Nat) : Option Instr :=
  let word : Word := BitVec.ofNat 16 (w % 2 ^ nbits)
  match (decodeBytes [highByte word, lowByte word]).1 with
  | .instr i => some i
  | .rejected _ => none

end Sys2Proof
end

