-- ==== Sys2Proof/Config.lean ====
section
/-! DEFINITION. The six configuration parameters (00_scope.md R5 to R10) and the free values of the
two inputs whose values the spec leaves open (R32, R33). The parameters' values for this hardware
stand in Machine/Defaults.lean. -/

namespace Sys2Proof

/-- The parameters: fixed at construction, changed by no instruction and by no command. -/
structure Config where
  /-- `SHIFT_USES_VY` (R5): the shifts read `V[y]` instead of `V[x]`. -/
  shiftUsesVy : Bool
  /-- `MEM_OPS_INCREMENT_I` (R6): `REG_DUMP` and `REG_LOAD` add `x + 1` to `I`. -/
  memOpsIncrementI : Bool
  /-- `ADD_I_SETS_VF` (R7): `ADD_TO_I` writes the 12-bit overflow to `VF`. -/
  addISetsVf : Bool
  /-- `STEPS_PER_TICK` (R8). -/
  stepsPerTick : Nat
  /-- `STACK_LIMIT` (R9); `none` is the spec's `unbounded`. -/
  stackLimit : Option Nat
  /-- `FONT` (R10): glyph `d` is bytes `5 * d` to `5 * d + 4`. -/
  font : Vector Byte 80
  deriving DecidableEq, Repr

/-- FREE VALUE. The key snapshot of the step with this number, where the host has lined none up
(R32: "no law on the sequence"). It has no body, so nothing can be proved of it. Log entry 3. -/
opaque Config.freeKeys : Nat → BitVec 16

/-- FREE VALUE. The random byte of the use with this number, where the host has lined none up
(R33: "Its value is under no law in this spec"). Log entry 4. -/
opaque Config.freeByte : Nat → Byte

end Sys2Proof
end

