-- ==== Sys2Proof/Machine/Defaults.lean ====
section
/-! DEFINITION. The values of the parameters that this hardware takes "when nothing else is said"
(00_scope.md R5 to R10, 20_memory.md R56). Log entry 2. -/

namespace Sys2Proof.Machine

/-- The default `FONT`, glyphs 0 to F (R56). PRESUMED: general knowledge in the spec too (G1). -/
def defaultFont : Vector Byte 80 := #v[
  0xF0, 0x90, 0x90, 0x90, 0xF0,  0x20, 0x60, 0x20, 0x20, 0x70,
  0xF0, 0x10, 0xF0, 0x80, 0xF0,  0xF0, 0x10, 0xF0, 0x10, 0xF0,
  0x90, 0x90, 0xF0, 0x10, 0x10,  0xF0, 0x80, 0xF0, 0x10, 0xF0,
  0xF0, 0x80, 0xF0, 0x90, 0xF0,  0xF0, 0x10, 0x20, 0x40, 0x40,
  0xF0, 0x90, 0xF0, 0x90, 0xF0,  0xF0, 0x90, 0xF0, 0x10, 0xF0,
  0xF0, 0x90, 0xF0, 0x90, 0x90,  0xE0, 0x90, 0xE0, 0x90, 0xE0,
  0xF0, 0x80, 0x80, 0x80, 0xF0,  0xE0, 0x90, 0x90, 0x90, 0xE0,
  0xF0, 0x80, 0xF0, 0x80, 0xF0,  0xF0, 0x80, 0xF0, 0x80, 0x80]

/-- The defaults of R5 to R10; `STACK_LIMIT = 16` is "for this hardware" (R9). -/
def defaultConfig : Config where
  shiftUsesVy := false
  memOpsIncrementI := false
  addISetsVf := false
  stepsPerTick := 10
  stackLimit := some 16
  font := defaultFont

end Sys2Proof.Machine
end

