-- ==== Sys2Proof/Machine/State.lean ====
section
/-! DEFINITION. The state of the CT8 core as plain data (10_state.md), the reasons a step can stop
(60_exceptions.md R250), and the state after construction (R36, R290). -/

namespace Sys2Proof.Machine

/-- The input-wait state `WAIT` with its 17 values (R30). -/
inductive WaitState where
  /-- `RUNNING` -/
  | running
  /-- `WAITING(t)`, `t` the target register -/
  | waiting (t : Reg)
  deriving DecidableEq, Repr

/-- The bytes of `MEM` that differ from the contents after `reset`, by rising address
(`Memory.wf` in Ops.lean says the form, `blankByte` what an unlisted address reads as). -/
abbrev Memory := List Host.Cell

/-- The framebuffer `FB` (R31): element `cy` is row `cy`, and its bit `cx` is the pixel in column `cx`. -/
abbrev Framebuffer := Vector (BitVec 64) 32

/-- The whole state: the tuple of 10_state.md, then the parameters (log entry 1), then the inputs
that the host has lined up (log entries 3 and 4). -/
structure State where
  /-- `V[0..15]` (R20); `V[15]` is `VF` (R21). -/
  v : Vector Byte 16
  /-- The address register `I` (R22). -/
  iReg : Word
  /-- The program counter `PC` (R23). -/
  pc : Word
  /-- `MEM` (R25). -/
  mem : Memory
  /-- `STACK` (R26), the oldest entry first, the top last. -/
  stack : List Word
  /-- The delay timer `DT` (R27). -/
  dt : Byte
  /-- The sound timer `ST` (R28). -/
  st : Byte
  /-- The flag cells `FLG[0..7]` (R29). -/
  flg : Vector Byte 8
  /-- `WAIT` (R30). -/
  wait : WaitState
  /-- `FB` (R31). -/
  fb : Framebuffer
  /-- The parameters (00_scope.md R5 to R10): constant, "an argument of the model". -/
  cfg : Config
  /-- The MODEL's field: key snapshots for the coming steps (R32, R121). Bit `k` set iff key `k` is down. -/
  keyQueue : List (BitVec 16)
  /-- The MODEL's field: how many snapshots have been taken; the argument of `Config.freeKeys`. -/
  keyDraws : Nat
  /-- The MODEL's field: bytes for the coming uses of `RND` (R33, R121). -/
  rndQueue : List Byte
  /-- The MODEL's field: how many random bytes have been taken; the argument of `Config.freeByte`. -/
  rndDraws : Nat
  deriving DecidableEq, Repr

/-- The four engine errors (R250). Each is the manual's own and leaves the state as it was (R255), so
all four are safe. -/
inductive Fault where
  /-- `DecodeError(w)`: a step that fetches a word that is no instruction (R251). Safe. -/
  | decodeError (w : Word)
  /-- `StackUnderflow(pc)`: `RETURN` on the empty stack (R252). Safe. -/
  | stackUnderflow (pc : Word)
  /-- `StackOverflow(pc)`: `CALL` at depth `STACK_LIMIT` (R253). Safe. -/
  | stackOverflow (pc : Word)
  /-- `AddressError(a)`: fetch, `DRAW`, `BCD_STORE`, `REG_DUMP`, `REG_LOAD` or `load` would touch an
  address above `0xFFF`, the lowest such being `a` (R254). Safe. -/
  | addressError (a : Nat)
  deriving DecidableEq, Repr

/-- Refusals. Every instruction has its meaning, so no step answers one. -/
inductive Refusal where
  /-- An instruction without a meaning would be refused by `exec` under its mnemonic. Safe. -/
  | notModelled (mnemonic : String)
  deriving DecidableEq, Repr

/-- Construction (power-on) with given parameters (R36, R290). The inputs belong to the host; none is
lined up (log entries 3 and 4). -/
def State.construct (c : Config) : State where
  v := Vector.replicate 16 0
  iReg := 0
  pc := 0x200
  mem := []
  stack := []
  dt := 0
  st := 0
  flg := Vector.replicate 8 0
  wait := .running
  fb := Vector.replicate 32 0
  cfg := c
  keyQueue := []
  keyDraws := 0
  rndQueue := []
  rndDraws := 0

/-- The machine right after construction with this hardware's parameters. -/
def State.reset : State := State.construct defaultConfig

end Sys2Proof.Machine
end

