-- ==== Sys2Proof/Machine/Ops.lean ====
section
/-! DEFINITION. The primitives of 00_scope.md R13 over the state: registers, memory, the call stack,
the program counter, the inputs, raising an engine error, and fetching. The spec's statements are
executed in the order written, so every writing operation takes the state last. -/

namespace Sys2Proof.Machine

/-- What a step answers. -/
abbrev StepOutcome := Host.Outcome State Fault Refusal

/-! ## Engine errors -/

/-- `raise E(info)`, the one way an instruction ends in an engine error: the error is the result and
no state is written, so the state stays as the step found it (R13, R255, R256). There is no handler,
no saved register and no return from an error (R258). -/
def raise (e : Fault) : StepOutcome := .fault e

/-! ## Registers -/

/-- `VF`, the cell `V[15]` (R21). -/
def vf : Reg := 15

/-- Read `V[x]`. -/
def readV (s : State) (x : Reg) : Byte := s.v[x.val]

/-- `V[x] <- b`. No register is hard-wired (R20). -/
def setV (x : Reg) (b : Byte) (s : State) : State := { s with v := s.v.set x.val b }

/-- `VF <- b`. -/
def setVF (b : Byte) (s : State) : State := setV vf b s

/-- `I <- a`. -/
def setI (a : Word) (s : State) : State := { s with iReg := a }

/-- `pc <- target`. -/
def setPc (target : Word) (s : State) : State := { s with pc := target }

/-- `DT <- b`. -/
def setDt (b : Byte) (s : State) : State := { s with dt := b }

/-- `ST <- b`. -/
def setSt (b : Byte) (s : State) : State := { s with st := b }

/-- Read `FLG[k]`. -/
def readFlg (s : State) (k : Fin 8) : Byte := s.flg[k.val]

/-- `FLG[k] <- b`. -/
def setFlg (k : Fin 8) (b : Byte) (s : State) : State := { s with flg := s.flg.set k.val b }

/-- `WAIT <- w`. -/
def setWait (w : WaitState) (s : State) : State := { s with wait := w }

/-- Replace the whole of `FB`. -/
def setFb (fb : Framebuffer) (s : State) : State := { s with fb := fb }

/-! ## The program counter -/

/-- `advance` (R114). -/
def advance (s : State) : State := setPc (s.pc + 2) s

/-- `skip_if(c)` (R115): `advance`, then `advance` again if `c` holds. The skipped word is not read. -/
def skipIf (c : Bool) (s : State) : State := if c then advance (advance s) else advance s

/-- The steps `0 .. n - 1` of a loop, in ascending order. -/
def ascending : Nat → (Nat → State → State) → State → State
  | 0, _, s => s
  | k + 1, body, s => body k (ascending k body s)

/-! ## Memory -/

/-- The number of bytes of `MEM` (R25). -/
def memSize : Nat := 4096

/-- What a byte of `MEM` holds until something is stored there: `FONT` below 0x050 and 0 elsewhere,
the contents after construction and `reset` (R25, R36). -/
def blankByte (font : Vector Byte 80) (a : Nat) : Byte := if h : a < 80 then font[a] else 0

/-- The byte listed for an address. -/
def Memory.lookup : Memory → Nat → Option Byte
  | [], _ => none
  | (k, b) :: m, a => if k = a then some b else Memory.lookup m a

/-- List a byte at its place in the rising order. -/
def Memory.insert : Memory → Nat → Byte → Memory
  | [], a, b => [(a, b)]
  | (k, c) :: m, a, b =>
    if a < k then (a, b) :: (k, c) :: m
    else if a = k then (a, b) :: m
    else (k, c) :: Memory.insert m a b

/-- Take an address off the list. -/
def Memory.remove (m : Memory) (a : Nat) : Memory := m.filter fun c => decide (c.1 ≠ a)

/-- Read one byte. -/
def Memory.read (font : Vector Byte 80) (m : Memory) (a : Nat) : Byte :=
  (Memory.lookup m a).getD (blankByte font a)

/-- Write one byte: what an unlisted address reads as is never listed. -/
def Memory.write (font : Vector Byte 80) (m : Memory) (a : Nat) (b : Byte) : Memory :=
  if b = blankByte font a then Memory.remove m a else Memory.insert m a b

/-- The canonical form: addresses strictly rising, all in `MEM`, no entry that an unlisted address
would read as. Two memories in this form with equal bytes are equal lists. -/
abbrev Memory.wf (font : Vector Byte 80) (m : Memory) : Prop :=
  m.Pairwise (fun c d => c.1 < d.1) ∧ ∀ c ∈ m, c.1 < memSize ∧ c.2 ≠ blankByte font c.1

/-- `MemRead(a, 1)` once the range is checked. -/
def readByte (s : State) (a : Nat) : Byte := Memory.read s.cfg.font s.mem a

/-- `MemWrite(a, 1, b)` once the range is checked. All of `MEM` is writable (R57). -/
def writeByte (a : Nat) (b : Byte) (s : State) : State :=
  { s with mem := Memory.write s.cfg.font s.mem a b }

/-- Bytes to ascending addresses. -/
def writeBytes : Nat → List Byte → State → State
  | _, [], s => s
  | a, b :: rest, s => writeBytes (a + 1) rest (writeByte a b s)

/-- The lowest address above `0xFFF` among the `count` bytes at `base`, if there is one. The sum is
never reduced (R59), and an access of no byte checks nothing (R58, R60). -/
def firstBadAddress (base count : Nat) : Option Nat :=
  if base + count ≤ memSize ∨ count = 0 then none else some (max base memSize)

/-- Check the whole range before anything changes (R60), then go on. -/
def checkRange (base count : Nat) (go : StepOutcome) : StepOutcome :=
  match firstBadAddress base count with
  | some a => raise (.addressError a)
  | none => go

/-! ## The call stack (R26) -/

/-- `Depth()`. -/
def depth (s : State) : Nat := s.stack.length

/-- Whether `Depth() = STACK_LIMIT`; never with `STACK_LIMIT = unbounded` (R9, R132). -/
def stackFull (s : State) : Bool :=
  match s.cfg.stackLimit with
  | some limit => decide (depth s = limit)
  | none => false

/-- `Push(a)`. -/
def push (a : Word) (s : State) : State := { s with stack := s.stack ++ [a] }

/-- The top entry. -/
def top? (s : State) : Option Word := s.stack.getLast?

/-- The state without the top entry. -/
def dropTop (s : State) : State := { s with stack := s.stack.dropLast }

/-! ## Inputs (R32, R33, R121) -/

/-- The key snapshot of the coming step: what the host lined up, else the free value. -/
def keySnapshot (s : State) : BitVec 16 :=
  match s.keyQueue with
  | keys :: _ => keys
  | [] => Config.freeKeys s.keyDraws

/-- This step's snapshot has been taken. -/
def takeKeys (s : State) : State :=
  { s with keyQueue := s.keyQueue.tail, keyDraws := s.keyDraws + 1 }

/-- `KeyPressed(k)`: a value above 15 names no key (R221). -/
def keyPressed (s : State) (k : Byte) : Bool :=
  decide (k.toNat ≤ 15) && (keySnapshot s).getLsbD k.toNat

/-- The lowest-numbered key that is down, scanning 0 to 15 (R225). -/
def lowestKeyDown (s : State) : Option Nat := (List.range 16).find? fun k => (keySnapshot s).getLsbD k

/-- The byte on `RND`: what the host lined up, else the free value. -/
def randomByte (s : State) : Byte :=
  match s.rndQueue with
  | b :: _ => b
  | [] => Config.freeByte s.rndDraws

/-- The byte has been used (R121: by `RAND_AND` only). -/
def takeRandom (s : State) : State :=
  { s with rndQueue := s.rndQueue.tail, rndDraws := s.rndDraws + 1 }

/-! ## The frame around an instruction (R111, R112, R117) -/

/-- Fetch and decode: the range, then the word, then its instruction (R112, R260). -/
def fetchDecode (s : State) : Except Fault Instr :=
  match firstBadAddress s.pc.toNat 2 with
  | some a => .error (.addressError a)
  | none =>
    let w := wordOfBytes (readByte s s.pc.toNat) (readByte s (s.pc.toNat + 1))
    match decode w with
    | .instr i => .ok i
    | .rejected _ => .error (.decodeError w)

/-- A completed step has used its key snapshot; an error leaves everything (R121, R255). -/
def finishStep : StepOutcome → StepOutcome
  | .next t => .next (takeKeys t)
  | .fault e => .fault e
  | .refused r => .refused r

/-- The poll of a step taken in `WAITING(t)` (R117, R225). -/
def pollKeys (t : Reg) (s : State) : State :=
  match lowestKeyDown s with
  | some k => setWait .running (advance (setV t (BitVec.ofNat 8 k) s))
  | none => s

/-- A step taken in `WAITING(t)`: it fetches nothing and cannot fail. -/
def waitStep (t : Reg) (s : State) : StepOutcome := .next (takeKeys (pollKeys t s))

/-! ## The host's placing of an instruction -/

/-- Whether a fetch at `PC` is in range. -/
def fetchable (s : State) : Bool := (firstBadAddress s.pc.toNat 2).isNone

/-- Make the coming step fetch `w`: running, `PC` at a place that can be fetched (the program's start
if it is at none), and the two bytes there. -/
def placeWord (w : Word) (s : State) : State :=
  let s := setWait .running s
  let s := if fetchable s then s else setPc 0x200 s
  writeBytes s.pc.toNat [highByte w, lowByte w] s

end Sys2Proof.Machine
end

