-- ==== Sys2Proof/Machine/Operands.lean ====
section
/-! DEFINITION. The operand forms (30_encoding.md R84, 43_index_memory.md R188): registers are read
by `readV`; immediates are zero-extended; the one data addressing mode is `I` plus an offset. -/

namespace Sys2Proof.Machine

/-- `zext_16(nnn)`: an immediate address (R84, R131, R180). -/
def immAddress (nnn : BitVec 12) : Word := nnn.setWidth 16

/-- The address of the `k`-th byte of a data access: the sum `I + k`, never reduced (R59). -/
def dataAddress (s : State) (k : Nat) : Nat := s.iReg.toNat + k

/-- The number of the register that the shifts read: `y` under `SHIFT_USES_VY`, else `x` (R5). -/
def shiftSource (s : State) (x y : Reg) : Reg := if s.cfg.shiftUsesVy then y else x

/-- The `n` bytes at `I`, lowest address first (R202's `rows`). -/
def dataBytes (s : State) (n : Nat) : List Byte := (List.range n).map fun k => readByte s (dataAddress s k)

/-- The general register with a loop counter's number. -/
def regOfNat (k : Nat) : Reg := Fin.ofNat 16 k

/-- The flag cell with a loop counter's number. -/
def cellOfNat (k : Nat) : Fin 8 := Fin.ofNat 8 k

/-- `I <- I + x + 1` under `MEM_OPS_INCREMENT_I`, else nothing (R6, R184, R185). -/
def bumpI (x : Reg) (s : State) : State :=
  if s.cfg.memOpsIncrementI then setI (BitVec.ofNat 16 (s.iReg.toNat + x.val + 1)) s else s

end Sys2Proof.Machine
end

