-- ==== Sys2Proof/Machine/Alu.lean ====
section
/-! DEFINITION. Register, arithmetic and logic instructions (42_alu.md R152 to R163). The statements
stand in the order of each rule, each on the state the one before it left (R151). -/

namespace Sys2Proof.Machine

/-- `SET_IMM Vx, kk` (R152). -/
def execSetImm (x : Reg) (kk : Byte) (s : State) : StepOutcome := .next (advance (setV x kk s))

/-- `ADD_IMM Vx, kk` (R153): the carry is lost. -/
def execAddImm (x : Reg) (kk : Byte) (s : State) : StepOutcome :=
  .next (advance (setV x (BitVec.ofNat 8 ((readV s x).toNat + kk.toNat)) s))

/-- `MOV Vx, Vy` (R154). -/
def execMov (x y : Reg) (s : State) : StepOutcome := .next (advance (setV x (readV s y) s))

/-- `OR Vx, Vy` (R155): `VF` is not a flag here. -/
def execOrReg (x y : Reg) (s : State) : StepOutcome :=
  .next (advance (setV x (readV s x ||| readV s y) s))

/-- `AND Vx, Vy` (R156). -/
def execAndReg (x y : Reg) (s : State) : StepOutcome :=
  .next (advance (setV x (readV s x &&& readV s y) s))

/-- `XOR Vx, Vy` (R157). -/
def execXorReg (x y : Reg) (s : State) : StepOutcome :=
  .next (advance (setV x (readV s x ^^^ readV s y) s))

/-- `ADD_REG Vx, Vy` (R158): `V[x]` first, `VF` second. -/
def execAddReg (x y : Reg) (s : State) : StepOutcome :=
  let sum := (readV s x).toNat + (readV s y).toNat
  let s := setV x (BitVec.ofNat 8 sum) s
  let s := setVF (carryFlag sum) s
  .next (advance s)

/-- The subtraction shared by `SUB_REG` and `SUB_REV`: `V[dest] <- diff mod 256`, then `VF`. -/
def subtractInto (dest : Reg) (minuend subtrahend : Byte) (s : State) : State :=
  let diff : Int := (minuend.toNat : Int) - (subtrahend.toNat : Int)
  setVF (noBorrowFlag diff) (setV dest (BitVec.ofInt 8 diff) s)

/-- `SUB_REG Vx, Vy` (R159). -/
def execSubReg (x y : Reg) (s : State) : StepOutcome :=
  .next (advance (subtractInto x (readV s x) (readV s y) s))

/-- `SHIFT_RIGHT Vx, Vy` (R160): `VF` first, and the second statement reads the state it left. -/
def execShiftRight (x y : Reg) (s : State) : StepOutcome :=
  let src := shiftSource s x y
  let s := setVF (bitShiftedRight (readV s src)) s
  let s := setV x (readV s src >>> 1) s
  .next (advance s)

/-- `SUB_REV Vx, Vy` (R161). -/
def execSubRev (x y : Reg) (s : State) : StepOutcome :=
  .next (advance (subtractInto x (readV s y) (readV s x) s))

/-- `SHIFT_LEFT Vx, Vy` (R162): `VF` first, and the second statement reads the state it left. -/
def execShiftLeft (x y : Reg) (s : State) : StepOutcome :=
  let src := shiftSource s x y
  let s := setVF (bitShiftedLeft (readV s src)) s
  let s := setV x (readV s src <<< 1) s
  .next (advance s)

/-- `RAND_AND Vx, kk` (R163): exactly one byte of `RND` is used. -/
def execRandAnd (x : Reg) (kk : Byte) (s : State) : StepOutcome :=
  .next (advance (setV x (kk &&& randomByte s) (takeRandom s)))

end Sys2Proof.Machine
end

