-- ==== Sys2Proof/Machine/ControlFlow.lean ====
section
/-! DEFINITION. The control transfer instructions (41_control_flow.md R130 to R137). No target is
checked when the transfer executes (R138). -/

namespace Sys2Proof.Machine

/-- `RETURN` (R130): the popped entry is the address of the `CALL`; control goes 2 beyond it. -/
def execRet (s : State) : StepOutcome :=
  match top? s with
  | none => raise (.stackUnderflow s.pc)
  | some a => .next (setPc (a + 2) (dropTop s))

/-- `JUMP nnn` (R131). -/
def execJump (nnn : BitVec 12) (s : State) : StepOutcome := .next (setPc (immAddress nnn) s)

/-- `CALL nnn` (R132): the address of the `CALL` itself is pushed. -/
def execCall (nnn : BitVec 12) (s : State) : StepOutcome :=
  if stackFull s then raise (.stackOverflow s.pc)
  else .next (setPc (immAddress nnn) (push s.pc s))

/-- `SKIP_EQ_IMM Vx, kk` (R133). -/
def execSkipEqImm (x : Reg) (kk : Byte) (s : State) : StepOutcome :=
  .next (skipIf (decide (readV s x = kk)) s)

/-- `SKIP_NE_IMM Vx, kk` (R134). -/
def execSkipNeImm (x : Reg) (kk : Byte) (s : State) : StepOutcome :=
  .next (skipIf (decide (readV s x ≠ kk)) s)

/-- `SKIP_EQ_REG Vx, Vy` (R135). -/
def execSkipEqReg (x y : Reg) (s : State) : StepOutcome :=
  .next (skipIf (decide (readV s x = readV s y)) s)

/-- `SKIP_NE_REG Vx, Vy` (R136). -/
def execSkipNeReg (x y : Reg) (s : State) : StepOutcome :=
  .next (skipIf (decide (readV s x ≠ readV s y)) s)

/-- `JUMP_OFFSET nnn` (R137): the offset register is always `V[0]`. -/
def execJumpOffset (nnn : BitVec 12) (s : State) : StepOutcome :=
  .next (setPc (BitVec.ofNat 16 (nnn.toNat + (readV s 0).toNat)) s)

end Sys2Proof.Machine
end

