-- ==== Sys2Proof/Machine/Display.lean ====
section
/-! DEFINITION. The sprite blitter and the display instructions (44_display.md R200 to R205). -/

namespace Sys2Proof.Machine

/-- The pixel `FB[cx][cy]` (R200). -/
def pixel (fb : Framebuffer) (cx : Fin 64) (cy : Fin 32) : Bool := fb[cy.val].getLsbD cx.val

/-- `FB[cx][cy] <- FB[cx][cy] ^ 1`. -/
def flipPixel (cx : Fin 64) (cy : Fin 32) (fb : Framebuffer) : Framebuffer :=
  fb.set cy.val (fb[cy.val] ^^^ BitVec.twoPow 64 cx.val)

/-- Where a pixel of a sprite falls: both coordinates wrap (R203, R205). -/
def wrapColumn (cx : Nat) : Fin 64 := Fin.ofNat 64 cx

def wrapRow (cy : Nat) : Fin 32 := Fin.ofNat 32 cy

/-- The framebuffer and whether a pixel has collided so far. -/
abbrev Blitted := Framebuffer × Bool

/-- One set sprite bit: a collision iff the pixel was on (R203, R204). -/
def blitPixel (cx : Fin 64) (cy : Fin 32) (acc : Blitted) : Blitted :=
  (flipPixel cx cy acc.1, acc.2 || pixel acc.1 cx cy)

/-- The columns `0 .. n - 1` of one sprite row; bit 7 is column 0 (R203). -/
def blitColumns (x0 : Nat) (cy : Fin 32) (row : Byte) : Nat → Blitted → Blitted
  | 0, acc => acc
  | c + 1, acc =>
    let acc := blitColumns x0 cy row c acc
    if row.getLsbD (7 - c) then blitPixel (wrapColumn (x0 + c)) cy acc else acc

/-- The rows of a sprite from row `y` down. -/
def blitRows (x0 : Nat) : Nat → List Byte → Blitted → Blitted
  | _, [], acc => acc
  | y, row :: rest, acc => blitRows x0 (y + 1) rest (blitColumns x0 (wrapRow y) row 8 acc)

/-- `Blit(x0, y0, rows)` (R203): the new framebuffer and `collided`. -/
def blit (x0 y0 : Nat) (rows : List Byte) (fb : Framebuffer) : Blitted :=
  blitRows x0 y0 rows (fb, false)

/-- All pixels off (R201). -/
def clearedFb : Framebuffer := Vector.replicate 32 0

/-- `CLEAR_SCREEN` (R201). -/
def execClearScreen (s : State) : StepOutcome := .next (advance (setFb clearedFb s))

/-- `DRAW Vx, Vy, n` (R202): the coordinates and rows are read before `VF` is written; with `n = 0`
nothing is read and nothing can fail. -/
def execDraw (x y : Reg) (n : Fin 16) (s : State) : StepOutcome :=
  checkRange s.iReg.toNat n.val
    (let drawn := blit (readV s x).toNat (readV s y).toNat (dataBytes s n.val) s.fb
     .next (advance (setVF (collisionFlag drawn.2) (setFb drawn.1 s))))

end Sys2Proof.Machine
end

