-- ==== Sys2Proof/Machine/IndexMemory.lean ====
section
/-! DEFINITION. Address register, memory transfer and flag-cell instructions (43_index_memory.md R180
to R187). Every memory range is checked whole before anything changes (R60). -/

namespace Sys2Proof.Machine

/-- `SET_I nnn` (R180). -/
def execSetI (nnn : BitVec 12) (s : State) : StepOutcome := .next (advance (setI (immAddress nnn) s))

/-- `ADD_TO_I Vx` (R181): `VF` is written, after `I`, only under `ADD_I_SETS_VF`. -/
def execAddToI (x : Reg) (s : State) : StepOutcome :=
  let sum := s.iReg.toNat + (readV s x).toNat
  let s := setI (BitVec.ofNat 16 sum) s
  let s := if s.cfg.addISetsVf then setVF (addressOverflowFlag sum) s else s
  .next (advance s)

/-- `FONT_PTR Vx` (R182): `V[x]` is not masked to 4 bits. -/
def execFontPtr (x : Reg) (s : State) : StepOutcome :=
  .next (advance (setI (BitVec.ofNat 16 ((readV s x).toNat * 5)) s))

/-- Hundreds, tens and ones (R183). -/
def bcdDigits (b : Byte) : List Byte :=
  [BitVec.ofNat 8 (b.toNat / 100), BitVec.ofNat 8 (b.toNat / 10 % 10), BitVec.ofNat 8 (b.toNat % 10)]

/-- `BCD_STORE Vx` (R183). -/
def execBcdStore (x : Reg) (s : State) : StepOutcome :=
  checkRange s.iReg.toNat 3
    (.next (advance (writeBytes (dataAddress s 0) (bcdDigits (readV s x)) s)))

/-- `REG_DUMP Vx` (R184). -/
def execRegDump (x : Reg) (s : State) : StepOutcome :=
  checkRange s.iReg.toNat (x.val + 1)
    (.next (advance (bumpI x (ascending (x.val + 1)
      (fun k s => writeByte (dataAddress s k) (readV s (regOfNat k)) s) s))))

/-- `REG_LOAD Vx` (R185). -/
def execRegLoad (x : Reg) (s : State) : StepOutcome :=
  checkRange s.iReg.toNat (x.val + 1)
    (.next (advance (bumpI x (ascending (x.val + 1)
      (fun k s => setV (regOfNat k) (readByte s (dataAddress s k)) s) s))))

/-- `FLAGS_SAVE Vx` (R186). A term with `x > 7` is no instruction: its word `Fx75` raises
`DecodeError`. -/
def execFlagsSave (x : Reg) (s : State) : StepOutcome :=
  if flagCellOperandOk x then
    .next (advance (ascending (x.val + 1)
      (fun k s => setFlg (cellOfNat k) (readV s (regOfNat k)) s) s))
  else raise (.decodeError (encode (.flagsSave x)))

/-- `FLAGS_LOAD Vx` (R187). A term with `x > 7` is no instruction: its word `Fx85` raises
`DecodeError`. -/
def execFlagsLoad (x : Reg) (s : State) : StepOutcome :=
  if flagCellOperandOk x then
    .next (advance (ascending (x.val + 1)
      (fun k s => setV (regOfNat k) (readFlg s (cellOfNat k)) s) s))
  else raise (.decodeError (encode (.flagsLoad x)))

end Sys2Proof.Machine
end

