-- ==== Sys2Proof/Machine/InputTimers.lean ====
section
/-! DEFINITION. Key and timer instructions (45_input_timers.md R222 to R230) and the countdown of the
timers (R231). The poll of a waiting step is `pollKeys` in Ops.lean. -/

namespace Sys2Proof.Machine

/-- `SKIP_KEY_DOWN Vx` (R222). -/
def execSkipKeyDown (x : Reg) (s : State) : StepOutcome := .next (skipIf (keyPressed s (readV s x)) s)

/-- `SKIP_KEY_UP Vx` (R223). -/
def execSkipKeyUp (x : Reg) (s : State) : StepOutcome := .next (skipIf (!keyPressed s (readV s x)) s)

/-- `GET_DELAY Vx` (R228). -/
def execGetDelay (x : Reg) (s : State) : StepOutcome := .next (advance (setV x s.dt s))

/-- `WAIT_KEY Vx` (R224): the entering step writes `WAIT` and nothing else; no key is looked at. -/
def execWaitKey (x : Reg) (s : State) : StepOutcome := .next (setWait (.waiting x) s)

/-- `SET_DELAY Vx` (R229). -/
def execSetDelay (x : Reg) (s : State) : StepOutcome := .next (advance (setDt (readV s x) s))

/-- `SET_SOUND Vx` (R230). -/
def execSetSound (x : Reg) (s : State) : StepOutcome := .next (advance (setSt (readV s x) s))

/-- One count of a timer: down by 1, and 0 stays 0 (R231). -/
def countDown (b : Byte) : Byte := if b = 0 then 0 else b - 1

/-- The start of a `tick`: both timers count iff the state is `RUNNING` (R231, R232). -/
def countTimers (s : State) : State :=
  match s.wait with
  | .running => setSt (countDown s.st) (setDt (countDown s.dt) s)
  | .waiting _ => s

end Sys2Proof.Machine
end

