-- ==== Sys2Proof/Machine/Step.lean ====
section
/-! DEFINITION. The `step` command (40_execution_cycle.md R111) and the placing of an instruction
where the coming step fetches it. -/

namespace Sys2Proof.Machine

/-- `step` (R111): in `WAITING` a poll of the keys; in `RUNNING` fetch, decode, execute. -/
def step (s : State) : Host.Outcome State Fault Refusal :=
  match s.wait with
  | .waiting t => waitStep t s
  | .running =>
    match fetchDecode s with
    | .error e => raise e
    | .ok i => finishStep (exec i s)

/-- `s` with the instruction word `w` (bits above `nbits` zero) where the coming step fetches. Log
entry 7. -/
def State.withFetchWord (s : State) (nbits w : Nat) : State :=
  placeWord (BitVec.ofNat 16 (w % 2 ^ nbits)) s

end Sys2Proof.Machine
end

