-- ==== Sys2Proof/Machine/Commands.lean ====
section
/-! DEFINITION. The host's commands (40_execution_cycle.md R110, R118 to R120; 70_reset_and_hazards.md
R290 to R292) and introspection (10_state.md R35). Construction is `State.construct`. -/

namespace Sys2Proof.Machine

/-- What a command reports (R256). -/
inductive Report where
  /-- It completed. -/
  | done
  /-- It met this engine error. -/
  | error (e : Fault)
  /-- A step was refused; no step of this model is. -/
  | refused (r : Refusal)
  deriving DecidableEq, Repr

/-- The state a command leaves, and its report. -/
structure CommandResult where
  state : State
  report : Report
  deriving DecidableEq, Repr

/-- The `step` command: an error leaves the state as it was (R111, R255). -/
def stepCommand (s : State) : CommandResult :=
  match step s with
  | .next t => ⟨t, .done⟩
  | .fault e => ⟨s, .error e⟩
  | .refused r => ⟨s, .refused r⟩

/-- At most `n` steps, ending at the first that reports an error, which keeps what the earlier ones
did (R118, R119). -/
def runSteps : Nat → State → CommandResult
  | 0, s => ⟨s, .done⟩
  | n + 1, s =>
    match stepCommand s with
    | ⟨t, .done⟩ => runSteps n t
    | stopped => stopped

/-- The `tick` command (R118): the timers count once, before the `STEPS_PER_TICK` steps. -/
def tick (s : State) : CommandResult := runSteps s.cfg.stepsPerTick (countTimers s)

/-- Where `load` puts a program, and how many bytes fit there (R52, R292). -/
def programStart : Nat := 0x200

def programRoom : Nat := 3584

/-- The `load(bytes)` command (R292): memory only, or the whole refused. -/
def load (bytes : List Byte) (s : State) : CommandResult :=
  if programRoom < bytes.length then ⟨s, .error (.addressError memSize)⟩
  else ⟨writeBytes programStart bytes s, .done⟩

/-- The `reset` command (R291): construction values for all but `FB`, the parameters and the inputs. -/
def resetCommand (s : State) : State :=
  { State.construct s.cfg with
    fb := s.fb
    keyQueue := s.keyQueue
    keyDraws := s.keyDraws
    rndQueue := s.rndQueue
    rndDraws := s.rndDraws }

/-- The host lines up key snapshots for the coming steps and bytes for the coming uses of `RND`
(R32, R33: it owns both inputs and may change them at any time). -/
def presentInputs (keys : List (BitVec 16)) (bytes : List Byte) (s : State) : State :=
  { s with keyQueue := keys, rndQueue := bytes }

/-- The commands a host can issue to a constructed core (R110). -/
inductive Command where
  | reset
  | load (bytes : List Byte)
  | step
  | tick
  | present (keys : List (BitVec 16)) (bytes : List Byte)
  deriving DecidableEq, Repr

/-- One command, whole (R110, R123). -/
def command : Command → State → CommandResult
  | .reset, s => ⟨resetCommand s, .done⟩
  | .load bytes, s => load bytes s
  | .step, s => stepCommand s
  | .tick, s => tick s
  | .present keys bytes, s => ⟨presentInputs keys bytes s, .done⟩

/-- A sequence of commands, whatever each reports. -/
def runCommands : List Command → State → State
  | [], s => s
  | c :: rest, s => runCommands rest (command c s).state

/-- What the host may read between commands (R35). -/
structure Introspection where
  v : Vector Byte 16
  i : Word
  pc : Word
  mem : List Byte
  stack : List Word
  dt : Byte
  st : Byte
  flg : Vector Byte 8
  wait : WaitState
  fb : Framebuffer
  deriving DecidableEq, Repr

/-- The introspection read: no side effect, so no state comes back (R35, R61). -/
def introspect (s : State) : Introspection where
  v := s.v
  i := s.iReg
  pc := s.pc
  mem := (List.range memSize).map (readByte s)
  stack := s.stack
  dt := s.dt
  st := s.st
  flg := s.flg
  wait := s.wait
  fb := s.fb

end Sys2Proof.Machine
end

