-- ==== Sys2Proof/Safety.lean ====
section
/-! DEFINITION. The terms that claims about the machine use: the pieces of state an effect may write
(the frame of an instruction), the states that commands can reach, and when a program has ended. -/

namespace Sys2Proof.Machine

/-- One piece of the state, as small as the spec lets an effect be. -/
inductive Piece where
  | v (x : Reg)
  | i
  | pc
  | byte (a : Nat)
  | stack
  | dt
  | st
  | flg (k : Fin 8)
  | wait
  | pixel (cx : Fin 64) (cy : Fin 32)
  | params
  | keyInput
  | rndInput
  deriving DecidableEq, Repr

/-- The two states agree on one piece. -/
def SamePiece (s t : State) : Piece → Prop
  | .v x => readV t x = readV s x
  | .i => t.iReg = s.iReg
  | .pc => t.pc = s.pc
  | .byte a => readByte t a = readByte s a
  | .stack => t.stack = s.stack
  | .dt => t.dt = s.dt
  | .st => t.st = s.st
  | .flg k => readFlg t k = readFlg s k
  | .wait => t.wait = s.wait
  | .pixel cx cy => Sys2Proof.Machine.pixel t.fb cx cy = Sys2Proof.Machine.pixel s.fb cx cy
  | .params => t.cfg = s.cfg
  | .keyInput => t.keyQueue = s.keyQueue ∧ t.keyDraws = s.keyDraws
  | .rndInput => t.rndQueue = s.rndQueue ∧ t.rndDraws = s.rndDraws

/-- The frame: everything but the pieces that `written` names is as before. -/
def ChangesOnly (written : Piece → Prop) (s t : State) : Prop :=
  ∀ p, ¬ written p → SamePiece s t p

/-- The formats of R83 as bit patterns, most significant part first: the words that claims name. -/
def patternA (op : BitVec 4) (nnn : BitVec 12) : Word := op ++ nnn

def patternXK (op : BitVec 4) (x : Reg) (kk : Byte) : Word := op ++ (BitVec.ofFin (w := 4) x) ++ kk

def patternXYN (op : BitVec 4) (x y : Reg) (n : BitVec 4) : Word :=
  op ++ (BitVec.ofFin (w := 4) x) ++ (BitVec.ofFin (w := 4) y) ++ n

/-- The pixels that a sprite at `(x0, y0)` covers with a set bit (R203, R205): row `r` comes from
byte `r`, column `c` from bit `7 - c`, and both coordinates wrap. -/
def SpriteCovers (x0 y0 : Nat) (rows : List Byte) (cx : Fin 64) (cy : Fin 32) : Prop :=
  ∃ r c : Nat, r < rows.length ∧ c < 8 ∧ (rows.getD r 0).getLsbD (7 - c) = true ∧
    cx.val = (x0 + c) % 64 ∧ cy.val = (y0 + r) % 32

/-- What every state that the commands reach satisfies: memory in its canonical form (R25), the stack
within its bound and holding addresses of executed `CALL`s, `PC` in the range of R24, and a waiting
machine still at a fetched instruction. -/
structure Inv (s : State) : Prop where
  memory : Memory.wf s.cfg.font s.mem
  depthBound : ∀ limit, s.cfg.stackLimit = some limit → s.stack.length ≤ limit
  stackEntries : ∀ a ∈ s.stack, a.toNat ≤ 0xFFE
  pcRange : s.pc.toNat ≤ 0x10FE
  waitingPc : s.wait ≠ .running → s.pc.toNat ≤ 0xFFE

/-- The states that a host can bring a constructed core to (R110). -/
def Reachable (s : State) : Prop := ∃ c commands, s = runCommands commands (State.construct c)

/-- The offered end of a program (R304): running, with a jump to itself at `PC`. -/
def Terminal (s : State) : Prop :=
  s.wait = .running ∧ ∃ nnn : BitVec 12, fetchDecode s = .ok (.jump nnn) ∧ nnn.toNat = s.pc.toNat

end Sys2Proof.Machine
end

