-- ==== Sys2Proof/Certificates/Slice0/Obligations.lean ====
section
/-! DEFINITION. The statements for the provers. A frame `ChangesOnly written s t` says that every piece
of the state but the written ones is as before: the other registers, `I`, `PC`, every byte of memory,
the stack, the timers, the flag cells, `WAIT`, every pixel, the parameters and both inputs. Encoding
clauses give the word by its bit pattern (30_encoding.md R83), for every operand. -/

open Sys2Proof Sys2Proof.Machine

/-! ## Encoding -/

/-- Decoding the word of any instruction gives that instruction back, operands and all. -/
def Obligations.DecodeOfEncodeGivesInstrBack : Prop :=
  ∀ i : Instr, WellFormed i → decode (encode i) = .instr i

/-- A word that decodes has one spelling: its instruction is well-formed and encodes to that word. That
no second spelling decodes (`01E0`, `5xy1`) is the spec's decision D14, that `F875` does not is D15 (log
entries 14 and 15). -/
def Obligations.EncodeOfDecodeGivesWordBack : Prop :=
  ∀ (w : Word) (i : Instr), decode w = .instr i → WellFormed i ∧ encode i = w

/-- R85, R98: a word decodes to an instruction iff it selects a row of the opcode table, that row is
the instruction's own and no other row is selected. The set of rows is the spec's decision D14. -/
def Obligations.DecodeFollowsOpcodeTable : Prop :=
  ∀ w : Word,
    (∀ i, decode w = .instr i → opcodeTable.filter (fun row => w &&& row.mask == row.pattern) = [rowOf i]) ∧
    (∀ r, decode w = .rejected r → opcodeTable.filter (fun row => w &&& row.mask == row.pattern) = [])

/-- R92: the words that are no instruction are exactly the listed classes (decisions D14, D15). -/
def Obligations.RejectedWordsAreTheListedClasses : Prop :=
  ∀ w : Word, (∃ r, decode w = .rejected r) ↔
    (w.toNat / 4096 = 0x0 ∧ w.toNat ≠ 0x00E0 ∧ w.toNat ≠ 0x00EE) ∨
    (w.toNat / 4096 = 0x5 ∧ w.toNat % 16 ≠ 0) ∨
    (w.toNat / 4096 = 0x8 ∧ w.toNat % 16 ∈ [0x8, 0x9, 0xA, 0xB, 0xC, 0xD, 0xF]) ∨
    (w.toNat / 4096 = 0x9 ∧ w.toNat % 16 ≠ 0) ∨
    (w.toNat / 4096 = 0xE ∧ w.toNat % 256 ∉ [0x9E, 0xA1]) ∨
    (w.toNat / 4096 = 0xF ∧
      w.toNat % 256 ∉ [0x07, 0x0A, 0x15, 0x18, 0x1E, 0x29, 0x33, 0x55, 0x65, 0x75, 0x85]) ∨
    (w.toNat / 4096 = 0xF ∧ w.toNat % 256 ∈ [0x75, 0x85] ∧ 8 ≤ w.toNat / 256 % 16)

/-- Six words of families 0, 1, 8, D, E and F, written out from their patterns (formats Z, A, XY, XYN and
X), decode to the instructions they stand for. That `0000` is rejected is the spec's decision D14 (log
entry 14). -/
def Obligations.SampleWordsDecode : Prop :=
  decode 0x00E0 = .instr .clearScreen ∧ decode 0x1ABC = .instr (.jump 0xABC) ∧
  decode 0x8AB4 = .instr (.addReg 0xA 0xB) ∧ decode 0xF255 = .instr (.regDump 2) ∧
  decode 0xD125 = .instr (.draw 1 2 5) ∧ decode 0xE1A1 = .instr (.skipKeyUp 1) ∧
  decode 0x0000 = .rejected .familyZero

/-! ## The step -/

/-- R111 to R113: a running step executes the instruction that the two bytes at `PC` hold, high byte
first, and no instruction is refused. The only thing a step adds is that its key snapshot has been
taken (the model's way to hold the input `KEYS`, log entry 3). -/
def Obligations.StepRunsTheDecodedInstr : Prop :=
  ∀ (s : State) (w : Word) (i : Instr), s.wait = .running → s.pc.toNat ≤ 0xFFE →
    w.toNat = (readByte s s.pc.toNat).toNat * 256 + (readByte s (s.pc.toNat + 1)).toNat →
    decode w = .instr i →
    (∀ t, exec i s = .next t → ∃ u, step s = .next u ∧ u.keyQueue = t.keyQueue.tail ∧
      u.keyDraws = t.keyDraws + 1 ∧ ChangesOnly (fun p => p = .keyInput) t u) ∧
    (∀ e, exec i s = .fault e → step s = .fault e) ∧
    (∀ r, exec i s ≠ .refused r)

/-- The model's own interface (log entry 7): a placed instruction word is the one the coming step
fetches and runs, and the placing touches nothing else that the fetch does not need. -/
def Obligations.PlacedWordIsFetchedNext : Prop :=
  ∀ (s : State) (i : Instr), WellFormed i →
    decodeTableWord 16 (encode i).toNat = some i ∧
    ∃ u, s.withFetchWord 16 (encode i).toNat = u ∧ u.wait = .running ∧ fetchDecode u = .ok i ∧
      (s.pc.toNat ≤ 0xFFE → u.pc = s.pc) ∧
      ChangesOnly (fun p => p = .wait ∨ p = .pc ∨ p = .byte u.pc.toNat ∨ p = .byte (u.pc.toNat + 1)) s u

/-- R251: a fetched word that matches no row of the opcode table raises `DecodeError` of that word. -/
def Obligations.UnmatchedWordRaisesDecodeError : Prop :=
  ∀ (s : State) (w : Word), s.wait = .running → s.pc.toNat ≤ 0xFFE →
    w.toNat = (readByte s s.pc.toNat).toNat * 256 + (readByte s (s.pc.toNat + 1)).toNat →
    (∀ row ∈ opcodeTable, w &&& row.mask ≠ row.pattern) →
    step s = .fault (.decodeError w)

/-- R117, R225: a step in `WAITING(t)` with no key down changes nothing; with some key down it writes
the lowest-numbered one to `V[t]`, advances and runs again. The lowest number is the spec's decision
D17. In both cases the key snapshot is taken, one for the step (log entry 3). -/
def Obligations.WaitingStepPollsKeys : Prop :=
  ∀ (s : State) (r : Reg), s.wait = .waiting r →
    ((∀ k < 16, (keySnapshot s).getLsbD k = false) →
      ∃ t, step s = .next t ∧ t.keyQueue = s.keyQueue.tail ∧ t.keyDraws = s.keyDraws + 1 ∧
        ChangesOnly (fun p => p = .keyInput) s t) ∧
    (∀ k < 16, (keySnapshot s).getLsbD k = true → (∀ j < k, (keySnapshot s).getLsbD j = false) →
      ∃ t, step s = .next t ∧ (readV t r).toNat = k ∧ t.pc = s.pc + 2 ∧ t.wait = .running ∧
        t.keyQueue = s.keyQueue.tail ∧ t.keyDraws = s.keyDraws + 1 ∧
        ChangesOnly (fun p => p = .v r ∨ p = .pc ∨ p = .wait ∨ p = .keyInput) s t)

/-- R250, R260: no step is refused, and exactly when a step raises, and which error: first the fetch,
then the decoder, then the one check the instruction has. `AddressError` is the spec's decision D11,
the payloads D20. -/
def Obligations.StepErrorsAreExactlyTheListed : Prop :=
  (∀ (s : State) (r : Refusal), step s ≠ .refused r) ∧
  ∀ (s : State) (e : Fault), step s = .fault e ↔
    s.wait = .running ∧
    ((0xFFE < s.pc.toNat ∧ e = .addressError (max s.pc.toNat 0x1000)) ∨
     (s.pc.toNat ≤ 0xFFE ∧ ∃ w : Word,
       w.toNat = (readByte s s.pc.toNat).toNat * 256 + (readByte s (s.pc.toNat + 1)).toNat ∧
       ((∃ r, decode w = .rejected r) ∧ e = .decodeError w ∨
        decode w = .instr .ret ∧ s.stack = [] ∧ e = .stackUnderflow s.pc ∨
        (∃ nnn, decode w = .instr (.call nnn)) ∧ s.cfg.stackLimit = some s.stack.length ∧
          e = .stackOverflow s.pc ∨
        (∃ x y n, decode w = .instr (.draw x y n) ∧ 1 ≤ n.val ∧ 0xFFF < s.iReg.toNat + n.val - 1) ∧
          e = .addressError (max s.iReg.toNat 0x1000) ∨
        (∃ x, decode w = .instr (.bcdStore x) ∧ 0xFFF < s.iReg.toNat + 2) ∧
          e = .addressError (max s.iReg.toNat 0x1000) ∨
        (∃ x, (decode w = .instr (.regDump x) ∨ decode w = .instr (.regLoad x)) ∧
          0xFFF < s.iReg.toNat + x.val) ∧
          e = .addressError (max s.iReg.toNat 0x1000))))

/-- R257 (the spec derives it): an error depends on no input, so it repeats whatever the keys and the
random bytes are. -/
def Obligations.ErrorsIgnoreTheInputs : Prop :=
  ∀ (s : State) (e : Fault) keys keyDraws bytes rndDraws, step s = .fault e →
    step { s with keyQueue := keys, keyDraws := keyDraws, rndQueue := bytes, rndDraws := rndDraws } = .fault e

/-- R121, R227: the keys reach only the two key skips, and the random byte only `RAND_AND`: any other
instruction does the same whatever they are. The queues are the model's (log entries 3 and 4). -/
def Obligations.InputsReachOnlyTheirReaders : Prop :=
  ∀ (i : Instr) (s t : State), exec i s = .next t →
    ((∀ x, i ≠ .skipKeyDown x ∧ i ≠ .skipKeyUp x) → ∀ keys draws,
      exec i { s with keyQueue := keys, keyDraws := draws } =
        .next { t with keyQueue := keys, keyDraws := draws }) ∧
    ((∀ x kk, i ≠ .randAnd x kk) → ∀ bytes draws,
      exec i { s with rndQueue := bytes, rndDraws := draws } =
        .next { t with rndQueue := bytes, rndDraws := draws })

/-- How the model holds the input `RND` (log entry 4): `RAND_AND` takes the first byte that the host
has lined up, and a free value where there is none; exactly one byte is taken. -/
def Obligations.RandomBytesAreTakenInOrder : Prop :=
  ∀ (s : State) (x : Reg) (kk : Byte),
    (∀ b rest, s.rndQueue = b :: rest →
      ∃ t, exec (.randAnd x kk) s = .next t ∧ readV t x = kk &&& b ∧ t.rndQueue = rest) ∧
    (s.rndQueue = [] →
      ∃ t, exec (.randAnd x kk) s = .next t ∧ readV t x = kk &&& Config.freeByte s.rndDraws ∧
        t.rndQueue = [] ∧ t.rndDraws = s.rndDraws + 1)

/-! ## The whole machine -/

/-- R22 to R31, R50, R51: which instructions write which piece of the state. The clauses on the
parameters, the key input and the random input speak of the model's own fields (log entries 1, 3 and 4). -/
def Obligations.OnlyTheListedInstrsWriteEachPiece : Prop :=
  ∀ (i : Instr) (s t : State), exec i s = .next t →
    (t.stack ≠ s.stack → i = .ret ∨ ∃ nnn, i = .call nnn) ∧
    (∀ k, readFlg t k ≠ readFlg s k → ∃ x, i = .flagsSave x) ∧
    (t.dt ≠ s.dt → ∃ x, i = .setDelay x) ∧
    (t.st ≠ s.st → ∃ x, i = .setSound x) ∧
    (t.wait ≠ s.wait → ∃ x, i = .waitKey x) ∧
    (∀ cx cy, pixel t.fb cx cy ≠ pixel s.fb cx cy → i = .clearScreen ∨ ∃ x y n, i = .draw x y n) ∧
    (∀ a, readByte t a ≠ readByte s a → (∃ x, i = .bcdStore x) ∨ ∃ x, i = .regDump x) ∧
    (t.iReg ≠ s.iReg → (∃ nnn, i = .setI nnn) ∨ (∃ x, i = .addToI x) ∨ (∃ x, i = .fontPtr x) ∨
      (s.cfg.memOpsIncrementI = true ∧ ((∃ x, i = .regDump x) ∨ ∃ x, i = .regLoad x))) ∧
    t.cfg = s.cfg ∧ t.keyQueue = s.keyQueue ∧ t.keyDraws = s.keyDraws ∧
    ((t.rndQueue ≠ s.rndQueue ∨ t.rndDraws ≠ s.rndDraws) → ∃ x kk, i = .randAnd x kk)

/-- R21: the instructions that write `VF`: the six that do so whatever their destination is, `ADD_TO_I`
under its parameter, and those whose destination field is 15; in particular the logic operations and
`ADD_IMM` leave it alone otherwise. That `FLAGS_LOAD` never reaches `VF`, since its field is at most 7, is
the spec's decision D15 (log entry 15). -/
def Obligations.OnlyTheListedInstrsWriteVF : Prop :=
  ∀ (i : Instr) (s t : State), exec i s = .next t → readV t vf ≠ readV s vf →
    (∃ x y, i = .addReg x y ∨ i = .subReg x y ∨ i = .shiftRight x y ∨ i = .subRev x y ∨ i = .shiftLeft x y) ∨
    (∃ x y n, i = .draw x y n) ∨
    (s.cfg.addISetsVf = true ∧ ∃ x, i = .addToI x) ∨
    (∃ kk, i = .setImm vf kk ∨ i = .addImm vf kk ∨ i = .randAnd vf kk) ∨
    (∃ y, i = .mov vf y ∨ i = .orReg vf y ∨ i = .andReg vf y ∨ i = .xorReg vf y) ∨
    i = .getDelay vf ∨ i = .regLoad vf

/-- R114, R116: every instruction outside R116's list ends two bytes on. -/
def Obligations.PlainInstrsAdvanceByTwo : Prop :=
  ∀ (i : Instr) (s t : State), exec i s = .next t →
    (∀ nnn, i ≠ .jump nnn ∧ i ≠ .jumpOffset nnn ∧ i ≠ .call nnn) → i ≠ .ret →
    (∀ x, i ≠ .waitKey x ∧ i ≠ .skipKeyDown x ∧ i ≠ .skipKeyUp x) →
    (∀ x kk, i ≠ .skipEqImm x kk ∧ i ≠ .skipNeImm x kk) →
    (∀ x y, i ≠ .skipEqReg x y ∧ i ≠ .skipNeReg x y) →
    t.pc = s.pc + 2

/-- The invariant of Safety.lean (canonical memory, the stack's bound and entries, `PC` in the range of
R24) is kept by every step, from every state that has it. -/
def Obligations.StepKeepsTheInvariant : Prop :=
  ∀ s t : State, Inv s → step s = .next t → Inv t

/-- The invariant holds after construction, whatever the parameters. -/
def Obligations.ConstructionMeetsTheInvariant : Prop :=
  (∀ c : Config, Inv (State.construct c)) ∧ Inv State.reset

/-- R24, R26: whatever commands a host issues to a constructed core, memory stays canonical, `PC` is at
most 0x10FE, stack entries are at most 0xFFE and the depth is at most `STACK_LIMIT`. -/
def Obligations.ReachableStatesMeetTheInvariant : Prop :=
  ∀ s : State, Reachable s → Inv s

/-- 00_scope.md R5 to R10: no command changes a parameter. -/
def Obligations.CommandsKeepTheParameters : Prop :=
  ∀ (c : Command) (s : State), (command c s).state.cfg = s.cfg

/-! ## Reset, load and tick -/

/-- R36, R290: the state after construction. The zeros outside the font, of `FLG`, `WAIT` and `FB` are
the spec's decisions D8 to D10; the font bytes are the parameter. -/
def Obligations.ConstructionValues : Prop :=
  ∀ c : Config, ∃ s, State.construct c = s ∧
    (∀ x, readV s x = 0) ∧ s.iReg = 0 ∧ s.pc = 0x200 ∧
    (∀ a (h : a < 80), readByte s a = c.font[a]) ∧ (∀ a, 80 ≤ a → readByte s a = 0) ∧
    s.stack = [] ∧ s.dt = 0 ∧ s.st = 0 ∧ (∀ k, readFlg s k = 0) ∧ s.wait = .running ∧
    (∀ cx cy, pixel s.fb cx cy = false) ∧ s.cfg = c

/-- R291: the `reset` command restores everything but `FB`, the parameters and the inputs (decisions
D8, D10). -/
def Obligations.ResetCommandRestoresAllButDisplay : Prop :=
  ∀ s : State, ∃ t, (command .reset s) = ⟨t, .done⟩ ∧
    (∀ cx cy, pixel t.fb cx cy = pixel s.fb cx cy) ∧ t.cfg = s.cfg ∧
    t.keyQueue = s.keyQueue ∧ t.keyDraws = s.keyDraws ∧ t.rndQueue = s.rndQueue ∧ t.rndDraws = s.rndDraws ∧
    ChangesOnly (fun p => (∃ cx cy, p = .pixel cx cy) ∨ p = .keyInput ∨ p = .rndInput)
      (State.construct s.cfg) t

/-- R292: `load` copies the bytes to 0x200 and up and touches nothing else; more than 3584 bytes are
refused whole (the spec's decision D21). -/
def Obligations.LoadCopiesBytesToProgramArea : Prop :=
  ∀ (bytes : List Byte) (s : State),
    (bytes.length ≤ 3584 → ∃ t, command (.load bytes) s = ⟨t, .done⟩ ∧
      (∀ k < bytes.length, readByte t (0x200 + k) = bytes.getD k 0) ∧
      ChangesOnly (fun p => ∃ k < bytes.length, p = .byte (0x200 + k)) s t) ∧
    (3584 < bytes.length → command (.load bytes) s = ⟨s, .error (.addressError 0x1000)⟩)

/-- R118, R231, R232: a tick that begins running first counts each timer down by one, never below 0,
and then takes its steps; one that begins blocked moves no timer. When the test is made is the spec's
decision D19. -/
def Obligations.TickCountsTimersThenSteps : Prop :=
  ∀ s : State,
    (s.wait = .running → ∃ u, tick s = runSteps s.cfg.stepsPerTick u ∧
      u.dt.toNat = s.dt.toNat - 1 ∧ u.st.toNat = s.st.toNat - 1 ∧
      ChangesOnly (fun p => p = .dt ∨ p = .st) s u) ∧
    (∀ r, s.wait = .waiting r → tick s = runSteps s.cfg.stepsPerTick s)

/-- R119, R255, R256: the steps of a tick are `step`s that compose; they stop at the first error, keep
what the earlier ones did, and leave a state whose next step raises the reported error again (decision
D19). The `step` command reports an error as its result and leaves the state as it was (D20). -/
def Obligations.TickStepsStopAtFirstError : Prop :=
  ∀ s : State,
    runSteps 0 s = ⟨s, .done⟩ ∧
    (∀ t, step s = .next t → runSteps 1 s = ⟨t, .done⟩ ∧ command .step s = ⟨t, .done⟩) ∧
    (∀ e, step s = .fault e → runSteps 1 s = ⟨s, .error e⟩ ∧ command .step s = ⟨s, .error e⟩) ∧
    ∀ (m n : Nat) (t : State),
      (runSteps m s = ⟨t, .done⟩ → runSteps (m + n) s = runSteps n t) ∧
      (∀ e, runSteps m s = ⟨t, .error e⟩ → runSteps (m + n) s = ⟨t, .error e⟩ ∧ step t = .fault e)

/-- R120, R226: a tick that begins blocked, with no key down in the snapshot of any of its steps, changes
nothing. The snapshot of its step `j` is the one after `j` have been taken, and one is taken for each
step (the model's way to hold `KEYS`, log entry 3). -/
def Obligations.BlockedTickWithoutKeysChangesNothing : Prop :=
  ∀ (s : State) (r : Reg), s.wait = .waiting r →
    (∀ j < s.cfg.stepsPerTick, ∀ k < 16,
      (keySnapshot { s with keyQueue := s.keyQueue.drop j, keyDraws := s.keyDraws + j }).getLsbD k = false) →
    ∃ t, command .tick s = ⟨t, .done⟩ ∧
      t.keyQueue = s.keyQueue.drop s.cfg.stepsPerTick ∧ t.keyDraws = s.keyDraws + s.cfg.stepsPerTick ∧
      ChangesOnly (fun p => p = .keyInput) s t

/-- R304 (the spec's offered choice, D26): a running machine at a jump to itself stays as it is, but that
one key snapshot is taken (log entry 3). -/
def Obligations.TerminalStateStays : Prop :=
  ∀ s : State, Terminal s → ∃ t, step s = .next t ∧
    t.keyQueue = s.keyQueue.tail ∧ t.keyDraws = s.keyDraws + 1 ∧ ChangesOnly (fun p => p = .keyInput) s t

/-! ## Control transfer (41_control_flow.md) -/

/-- R131. -/
def Obligations.JumpSetsPc : Prop :=
  ∀ (nnn : BitVec 12) (s : State), decode (patternA 0x1 nnn) = .instr (.jump nnn) ∧
    ∃ t, exec (.jump nnn) s = .next t ∧ t.pc.toNat = nnn.toNat ∧ ChangesOnly (fun p => p = .pc) s t

/-- R132. That the entry is the address of the `CALL` itself is the spec's decision D13, the bound D6. -/
def Obligations.CallPushesItsOwnAddress : Prop :=
  ∀ (nnn : BitVec 12) (s : State), decode (patternA 0x2 nnn) = .instr (.call nnn) ∧
    (s.cfg.stackLimit ≠ some s.stack.length →
      ∃ t, exec (.call nnn) s = .next t ∧ t.stack = s.stack ++ [s.pc] ∧ t.pc.toNat = nnn.toNat ∧
        ChangesOnly (fun p => p = .stack ∨ p = .pc) s t) ∧
    (s.cfg.stackLimit = some s.stack.length → exec (.call nnn) s = .fault (.stackOverflow s.pc))

/-- R130. That control lands 2 beyond the popped entry is the spec's decision D13. -/
def Obligations.ReturnLandsBehindItsCall : Prop :=
  ∀ s : State, decode 0x00EE = .instr .ret ∧
    (∀ rest a, s.stack = rest ++ [a] →
      ∃ t, exec .ret s = .next t ∧ t.stack = rest ∧ t.pc = a + 2 ∧
        ChangesOnly (fun p => p = .stack ∨ p = .pc) s t) ∧
    (s.stack = [] → exec .ret s = .fault (.stackUnderflow s.pc))

/-- R139 (the spec derives it): a `RETURN` at the depth a `CALL` left goes to the instruction after
that `CALL` and leaves the stack as before it, whatever else has changed in between. -/
def Obligations.CallThenReturnComesBack : Prop :=
  ∀ (nnn : BitVec 12) (s t u : State), exec (.call nnn) s = .next t → u.stack = t.stack →
    ∃ w, exec .ret u = .next w ∧ w.pc = s.pc + 2 ∧ w.stack = s.stack

/-- R133, R134: exactly one of the two skips, and nothing but `PC` changes. -/
def Obligations.SkipOnImmediate : Prop :=
  ∀ (x : Reg) (kk : Byte) (s : State),
    decode (patternXK 0x3 x kk) = .instr (.skipEqImm x kk) ∧
    decode (patternXK 0x4 x kk) = .instr (.skipNeImm x kk) ∧
    (∃ t, exec (.skipEqImm x kk) s = .next t ∧
      t.pc = (if readV s x = kk then s.pc + 4 else s.pc + 2) ∧ ChangesOnly (fun p => p = .pc) s t) ∧
    (∃ t, exec (.skipNeImm x kk) s = .next t ∧
      t.pc = (if readV s x = kk then s.pc + 2 else s.pc + 4) ∧ ChangesOnly (fun p => p = .pc) s t)

/-- R135, R136; with `x = y` the first always skips and the second never does. -/
def Obligations.SkipOnRegisters : Prop :=
  ∀ (x y : Reg) (s : State),
    decode (patternXYN 0x5 x y 0) = .instr (.skipEqReg x y) ∧
    decode (patternXYN 0x9 x y 0) = .instr (.skipNeReg x y) ∧
    (∃ t, exec (.skipEqReg x y) s = .next t ∧
      t.pc = (if readV s x = readV s y then s.pc + 4 else s.pc + 2) ∧ ChangesOnly (fun p => p = .pc) s t) ∧
    (∃ t, exec (.skipNeReg x y) s = .next t ∧
      t.pc = (if readV s x = readV s y then s.pc + 2 else s.pc + 4) ∧ ChangesOnly (fun p => p = .pc) s t)

/-- R222, R223. That a value above 15 names no key is the spec's decision D16 (R221). -/
def Obligations.SkipOnKey : Prop :=
  ∀ (x : Reg) (s : State),
    decode (patternXK 0xE x 0x9E) = .instr (.skipKeyDown x) ∧
    decode (patternXK 0xE x 0xA1) = .instr (.skipKeyUp x) ∧
    ∃ t u, exec (.skipKeyDown x) s = .next t ∧ exec (.skipKeyUp x) s = .next u ∧
      ((readV s x).toNat ≤ 15 ∧ (keySnapshot s).getLsbD (readV s x).toNat = true →
        t.pc = s.pc + 4 ∧ u.pc = s.pc + 2) ∧
      (15 < (readV s x).toNat ∨ (keySnapshot s).getLsbD (readV s x).toNat = false →
        t.pc = s.pc + 2 ∧ u.pc = s.pc + 4) ∧
      ChangesOnly (fun p => p = .pc) s t ∧ ChangesOnly (fun p => p = .pc) s u

/-- R137: the sum is not reduced to 12 bits. -/
def Obligations.JumpOffsetAddsV0 : Prop :=
  ∀ (nnn : BitVec 12) (s : State), decode (patternA 0xB nnn) = .instr (.jumpOffset nnn) ∧
    ∃ t, exec (.jumpOffset nnn) s = .next t ∧ t.pc.toNat = nnn.toNat + (readV s 0).toNat ∧
      ChangesOnly (fun p => p = .pc) s t

/-! ## Registers and arithmetic (42_alu.md) -/

/-- R152. -/
def Obligations.SetImmLoadsImmediate : Prop :=
  ∀ (x : Reg) (kk : Byte) (s : State), decode (patternXK 0x6 x kk) = .instr (.setImm x kk) ∧
    ∃ t, exec (.setImm x kk) s = .next t ∧ readV t x = kk ∧ t.pc = s.pc + 2 ∧
      ChangesOnly (fun p => p = .v x ∨ p = .pc) s t

/-- R153: the sum wraps and no flag is written. -/
def Obligations.AddImmWraps : Prop :=
  ∀ (x : Reg) (kk : Byte) (s : State), decode (patternXK 0x7 x kk) = .instr (.addImm x kk) ∧
    ∃ t, exec (.addImm x kk) s = .next t ∧
      (readV t x).toNat = ((readV s x).toNat + kk.toNat) % 256 ∧ t.pc = s.pc + 2 ∧
      ChangesOnly (fun p => p = .v x ∨ p = .pc) s t

/-- R154. -/
def Obligations.MovCopiesRegister : Prop :=
  ∀ (x y : Reg) (s : State), decode (patternXYN 0x8 x y 0x0) = .instr (.mov x y) ∧
    ∃ t, exec (.mov x y) s = .next t ∧ readV t x = readV s y ∧ t.pc = s.pc + 2 ∧
      ChangesOnly (fun p => p = .v x ∨ p = .pc) s t

/-- R155, R156, R157: bit by bit, and `VF` is no flag here. -/
def Obligations.LogicOperationsAreBitwise : Prop :=
  ∀ (x y : Reg) (s : State),
    decode (patternXYN 0x8 x y 0x1) = .instr (.orReg x y) ∧
    decode (patternXYN 0x8 x y 0x2) = .instr (.andReg x y) ∧
    decode (patternXYN 0x8 x y 0x3) = .instr (.xorReg x y) ∧
    (∃ t, exec (.orReg x y) s = .next t ∧ t.pc = s.pc + 2 ∧
      (∀ b < 8, (readV t x).getLsbD b = ((readV s x).getLsbD b || (readV s y).getLsbD b)) ∧
      ChangesOnly (fun p => p = .v x ∨ p = .pc) s t) ∧
    (∃ t, exec (.andReg x y) s = .next t ∧ t.pc = s.pc + 2 ∧
      (∀ b < 8, (readV t x).getLsbD b = ((readV s x).getLsbD b && (readV s y).getLsbD b)) ∧
      ChangesOnly (fun p => p = .v x ∨ p = .pc) s t) ∧
    (∃ t, exec (.xorReg x y) s = .next t ∧ t.pc = s.pc + 2 ∧
      (∀ b < 8, (readV t x).getLsbD b = ((readV s x).getLsbD b ^^ (readV s y).getLsbD b)) ∧
      ChangesOnly (fun p => p = .v x ∨ p = .pc) s t)

/-- R158: `VF` ends as the carry, also when it is the destination. -/
def Obligations.AddRegSetsCarry : Prop :=
  ∀ (x y : Reg) (s : State), decode (patternXYN 0x8 x y 0x4) = .instr (.addReg x y) ∧
    ∃ t, exec (.addReg x y) s = .next t ∧
      (x ≠ vf → (readV t x).toNat = ((readV s x).toNat + (readV s y).toNat) % 256) ∧
      readV t vf = (if 256 ≤ (readV s x).toNat + (readV s y).toNat then 1 else 0) ∧
      t.pc = s.pc + 2 ∧ ChangesOnly (fun p => p = .v x ∨ p = .v vf ∨ p = .pc) s t

/-- R159, R161: `VF` ends as the no-borrow bit, also when it is the destination. -/
def Obligations.SubtractionsSetNoBorrow : Prop :=
  ∀ (x y : Reg) (s : State),
    decode (patternXYN 0x8 x y 0x5) = .instr (.subReg x y) ∧
    decode (patternXYN 0x8 x y 0x7) = .instr (.subRev x y) ∧
    (∃ t, exec (.subReg x y) s = .next t ∧
      (x ≠ vf → (readV t x).toNat = (256 + (readV s x).toNat - (readV s y).toNat) % 256) ∧
      readV t vf = (if (readV s x).toNat < (readV s y).toNat then 0 else 1) ∧
      t.pc = s.pc + 2 ∧ ChangesOnly (fun p => p = .v x ∨ p = .v vf ∨ p = .pc) s t) ∧
    (∃ t, exec (.subRev x y) s = .next t ∧
      (x ≠ vf → (readV t x).toNat = (256 + (readV s y).toNat - (readV s x).toNat) % 256) ∧
      readV t vf = (if (readV s y).toNat < (readV s x).toNat then 0 else 1) ∧
      t.pc = s.pc + 2 ∧ ChangesOnly (fun p => p = .v x ∨ p = .v vf ∨ p = .pc) s t)

/-- R160, under both settings of `SHIFT_USES_VY`. The parameter is the spec's decision D2; the order of
the two writes, which decides the cases with `VF`, is D18. -/
def Obligations.ShiftRightMovesBitZeroToVF : Prop :=
  ∀ (x y src : Reg) (s : State), decode (patternXYN 0x8 x y 0x6) = .instr (.shiftRight x y) ∧
    (src = (if s.cfg.shiftUsesVy = true then y else x) →
      ∃ t, exec (.shiftRight x y) s = .next t ∧
        (x ≠ vf → src ≠ vf → (readV t x).toNat = (readV s src).toNat / 2 ∧
          (readV t vf).toNat = (readV s src).toNat % 2) ∧
        (x = vf → src ≠ vf → (readV t vf).toNat = (readV s src).toNat / 2) ∧
        (x ≠ vf → src = vf → (readV t x).toNat = 0 ∧ (readV t vf).toNat = (readV s vf).toNat % 2) ∧
        (x = vf → src = vf → (readV t vf).toNat = 0) ∧
        t.pc = s.pc + 2 ∧ ChangesOnly (fun p => p = .v x ∨ p = .v vf ∨ p = .pc) s t)

/-- R162, under both settings of `SHIFT_USES_VY` (decisions D2 and D18, as for the right shift). -/
def Obligations.ShiftLeftMovesBitSevenToVF : Prop :=
  ∀ (x y src : Reg) (s : State), decode (patternXYN 0x8 x y 0xE) = .instr (.shiftLeft x y) ∧
    (src = (if s.cfg.shiftUsesVy = true then y else x) →
      ∃ t, exec (.shiftLeft x y) s = .next t ∧
        (x ≠ vf → src ≠ vf → (readV t x).toNat = 2 * (readV s src).toNat % 256 ∧
          (readV t vf).toNat = (readV s src).toNat / 128) ∧
        (x = vf → src ≠ vf → (readV t vf).toNat = 2 * (readV s src).toNat % 256) ∧
        (x ≠ vf → src = vf → (readV t x).toNat = 2 * ((readV s vf).toNat / 128) ∧
          (readV t vf).toNat = (readV s vf).toNat / 128) ∧
        (x = vf → src = vf → (readV t vf).toNat = 2 * ((readV s vf).toNat / 128)) ∧
        t.pc = s.pc + 2 ∧ ChangesOnly (fun p => p = .v x ∨ p = .v vf ∨ p = .pc) s t)

/-- R163, for every value of the random byte. -/
def Obligations.RandAndMasksTheRandomByte : Prop :=
  ∀ (x : Reg) (kk : Byte) (s : State), decode (patternXK 0xC x kk) = .instr (.randAnd x kk) ∧
    ∃ t, exec (.randAnd x kk) s = .next t ∧ readV t x = kk &&& randomByte s ∧ t.pc = s.pc + 2 ∧
      ChangesOnly (fun p => p = .v x ∨ p = .pc ∨ p = .rndInput) s t

/-! ## Address register, memory and flag cells (43_index_memory.md) -/

/-- R180. -/
def Obligations.SetILoadsAddress : Prop :=
  ∀ (nnn : BitVec 12) (s : State), decode (patternA 0xA nnn) = .instr (.setI nnn) ∧
    ∃ t, exec (.setI nnn) s = .next t ∧ t.iReg.toNat = nnn.toNat ∧ t.pc = s.pc + 2 ∧
      ChangesOnly (fun p => p = .i ∨ p = .pc) s t

/-- R181, under both settings of `ADD_I_SETS_VF` (the spec's decision D4). -/
def Obligations.AddToIWrapsAtSixteenBits : Prop :=
  ∀ (x : Reg) (s : State), decode (patternXK 0xF x 0x1E) = .instr (.addToI x) ∧
    ∃ t, exec (.addToI x) s = .next t ∧
      t.iReg.toNat = (s.iReg.toNat + (readV s x).toNat) % 65536 ∧ t.pc = s.pc + 2 ∧
      (s.cfg.addISetsVf = false → ChangesOnly (fun p => p = .i ∨ p = .pc) s t) ∧
      (s.cfg.addISetsVf = true →
        readV t vf = (if 0xFFF < s.iReg.toNat + (readV s x).toNat then 1 else 0) ∧
        ChangesOnly (fun p => p = .i ∨ p = .pc ∨ p = .v vf) s t)

/-- R182: `V[x]` is not masked to four bits. -/
def Obligations.FontPtrPointsAtGlyph : Prop :=
  ∀ (x : Reg) (s : State), decode (patternXK 0xF x 0x29) = .instr (.fontPtr x) ∧
    ∃ t, exec (.fontPtr x) s = .next t ∧ t.iReg.toNat = 5 * (readV s x).toNat ∧ t.pc = s.pc + 2 ∧
      ChangesOnly (fun p => p = .i ∨ p = .pc) s t

/-- R183. The error is the spec's decision D11. -/
def Obligations.BcdStoreWritesThreeDigits : Prop :=
  ∀ (x : Reg) (s : State), decode (patternXK 0xF x 0x33) = .instr (.bcdStore x) ∧
    (s.iReg.toNat + 2 ≤ 0xFFF → ∃ t, exec (.bcdStore x) s = .next t ∧
      (readByte t (dataAddress s 0)).toNat = (readV s x).toNat / 100 ∧
      (readByte t (dataAddress s 1)).toNat = (readV s x).toNat / 10 % 10 ∧
      (readByte t (dataAddress s 2)).toNat = (readV s x).toNat % 10 ∧ t.pc = s.pc + 2 ∧
      ChangesOnly (fun p => (∃ k < 3, p = .byte (dataAddress s k)) ∨ p = .pc) s t) ∧
    (0xFFF < s.iReg.toNat + 2 →
      exec (.bcdStore x) s = .fault (.addressError (max s.iReg.toNat 0x1000)))

/-- R184, under both settings of `MEM_OPS_INCREMENT_I` (the spec's decision D3; the error is D11). -/
def Obligations.RegDumpStoresRegisters : Prop :=
  ∀ (x : Reg) (s : State), decode (patternXK 0xF x 0x55) = .instr (.regDump x) ∧
    (s.iReg.toNat + x.val ≤ 0xFFF → ∃ t, exec (.regDump x) s = .next t ∧
      (∀ k : Reg, k ≤ x → readByte t (dataAddress s k.val) = readV s k) ∧ t.pc = s.pc + 2 ∧
      (s.cfg.memOpsIncrementI = true → t.iReg.toNat = s.iReg.toNat + x.val + 1) ∧
      (s.cfg.memOpsIncrementI = false → t.iReg = s.iReg) ∧
      ChangesOnly (fun p => (∃ k ≤ x.val, p = .byte (dataAddress s k)) ∨ p = .pc ∨ p = .i) s t) ∧
    (0xFFF < s.iReg.toNat + x.val →
      exec (.regDump x) s = .fault (.addressError (max s.iReg.toNat 0x1000)))

/-- R185, under both settings of `MEM_OPS_INCREMENT_I` (the spec's decision D3; the error is D11). -/
def Obligations.RegLoadFillsRegisters : Prop :=
  ∀ (x : Reg) (s : State), decode (patternXK 0xF x 0x65) = .instr (.regLoad x) ∧
    (s.iReg.toNat + x.val ≤ 0xFFF → ∃ t, exec (.regLoad x) s = .next t ∧
      (∀ k : Reg, k ≤ x → readV t k = readByte s (dataAddress s k.val)) ∧ t.pc = s.pc + 2 ∧
      (s.cfg.memOpsIncrementI = true → t.iReg.toNat = s.iReg.toNat + x.val + 1) ∧
      (s.cfg.memOpsIncrementI = false → t.iReg = s.iReg) ∧
      ChangesOnly (fun p => (∃ k : Reg, k ≤ x ∧ p = .v k) ∨ p = .pc ∨ p = .i) s t) ∧
    (0xFFF < s.iReg.toNat + x.val →
      exec (.regLoad x) s = .fault (.addressError (max s.iReg.toNat 0x1000)))

/-- R186. That the words with `x >= 8` are no instruction is the spec's decision D15. -/
def Obligations.FlagsSaveCopiesToCells : Prop :=
  ∀ (x : Reg) (s : State),
    (x.val ≤ 7 → decode (patternXK 0xF x 0x75) = .instr (.flagsSave x) ∧
      ∃ t, exec (.flagsSave x) s = .next t ∧
        (∀ (k : Fin 8) (r : Reg), r.val = k.val → r ≤ x → readFlg t k = readV s r) ∧ t.pc = s.pc + 2 ∧
        ChangesOnly (fun p => (∃ k : Fin 8, k.val ≤ x.val ∧ p = .flg k) ∨ p = .pc) s t) ∧
    (7 < x.val → (∃ r, decode (patternXK 0xF x 0x75) = .rejected r) ∧
      exec (.flagsSave x) s = .fault (.decodeError (patternXK 0xF x 0x75)))

/-- R187. That the words with `x >= 8` are no instruction is the spec's decision D15. -/
def Obligations.FlagsLoadCopiesFromCells : Prop :=
  ∀ (x : Reg) (s : State),
    (x.val ≤ 7 → decode (patternXK 0xF x 0x85) = .instr (.flagsLoad x) ∧
      ∃ t, exec (.flagsLoad x) s = .next t ∧
        (∀ (k : Fin 8) (r : Reg), r.val = k.val → r ≤ x → readV t r = readFlg s k) ∧ t.pc = s.pc + 2 ∧
        ChangesOnly (fun p => (∃ r : Reg, r ≤ x ∧ p = .v r) ∨ p = .pc) s t) ∧
    (7 < x.val → (∃ r, decode (patternXK 0xF x 0x85) = .rejected r) ∧
      exec (.flagsLoad x) s = .fault (.decodeError (patternXK 0xF x 0x85)))

/-! ## Display (44_display.md) -/

/-- R201. That `clear()` leaves every pixel 0 is the spec's decision D8. -/
def Obligations.ClearScreenTurnsPixelsOff : Prop :=
  ∀ s : State, decode 0x00E0 = .instr .clearScreen ∧
    ∃ t, exec .clearScreen s = .next t ∧ (∀ cx cy, pixel t.fb cx cy = false) ∧ t.pc = s.pc + 2 ∧
      ChangesOnly (fun p => (∃ cx cy, p = .pixel cx cy) ∨ p = .pc) s t

/-- R203, R204: the blitter inverts exactly the pixels under a set sprite bit, and reports a collision
iff one of them was on. -/
def Obligations.BlitXorsTheCoveredPixels : Prop :=
  ∀ (x0 y0 : Nat) (rows : List Byte) (fb : Framebuffer), rows.length ≤ 15 →
    (∀ cx cy, pixel (blit x0 y0 rows fb).1 cx cy = true ↔
      ¬ (pixel fb cx cy = true ↔ SpriteCovers x0 y0 rows cx cy)) ∧
    ((blit x0 y0 rows fb).2 = true ↔ ∃ cx cy, SpriteCovers x0 y0 rows cx cy ∧ pixel fb cx cy = true)

/-- R206 (the spec derives it): drawing a sprite twice restores the screen, and the second drawing
collides iff the first turned some pixel on. -/
def Obligations.DrawingTwiceRestoresTheScreen : Prop :=
  ∀ (x0 y0 : Nat) (rows : List Byte) (fb : Framebuffer), rows.length ≤ 15 →
    (blit x0 y0 rows (blit x0 y0 rows fb).1).1 = fb ∧
    ((blit x0 y0 rows (blit x0 y0 rows fb).1).2 = true ↔
      ∃ cx cy, SpriteCovers x0 y0 rows cx cy ∧ pixel fb cx cy = false)

/-- R205: both coordinates wrap, so a start position counts modulo 64 and 32. -/
def Obligations.SpritePositionsWrap : Prop :=
  ∀ (x0 y0 a b : Nat) (rows : List Byte) (fb : Framebuffer),
    blit (x0 + 64 * a) (y0 + 32 * b) rows fb = blit x0 y0 rows fb

/-- R202: the sprite is the `n` bytes at `I`, the position is read before `VF` is written. The case
`n = 0` is the spec's decision D22, the error D11. -/
def Obligations.DrawXorsSpriteAndReportsCollision : Prop :=
  ∀ (x y : Reg) (n : Fin 16) (rows : List Byte) (s : State),
    decode (patternXYN 0xD x y (BitVec.ofFin n)) = .instr (.draw x y n) ∧
    (n.val = 0 ∨ s.iReg.toNat + n.val - 1 ≤ 0xFFF →
      rows.length = n.val → (∀ r < n.val, rows.getD r 0 = readByte s (dataAddress s r)) →
      ∃ t, exec (.draw x y n) s = .next t ∧
        (∀ cx cy, pixel t.fb cx cy = true ↔ ¬ (pixel s.fb cx cy = true ↔
          SpriteCovers (readV s x).toNat (readV s y).toNat rows cx cy)) ∧
        ((∃ cx cy, SpriteCovers (readV s x).toNat (readV s y).toNat rows cx cy ∧
          pixel s.fb cx cy = true) → readV t vf = 1) ∧
        ((∀ cx cy, SpriteCovers (readV s x).toNat (readV s y).toNat rows cx cy →
          pixel s.fb cx cy = false) → readV t vf = 0) ∧
        t.pc = s.pc + 2 ∧
        ChangesOnly (fun p => (∃ cx cy, p = .pixel cx cy) ∨ p = .v vf ∨ p = .pc) s t) ∧
    (1 ≤ n.val → 0xFFF < s.iReg.toNat + n.val - 1 →
      exec (.draw x y n) s = .fault (.addressError (max s.iReg.toNat 0x1000)))

/-! ## Keys and timers (45_input_timers.md) -/

/-- R224. That the entering step looks at no key is the spec's decision D17. -/
def Obligations.WaitKeyEntersTheWait : Prop :=
  ∀ (x : Reg) (s : State), decode (patternXK 0xF x 0x0A) = .instr (.waitKey x) ∧
    ∃ t, exec (.waitKey x) s = .next t ∧ t.wait = .waiting x ∧ ChangesOnly (fun p => p = .wait) s t

/-- R228. -/
def Obligations.GetDelayReadsTheTimer : Prop :=
  ∀ (x : Reg) (s : State), decode (patternXK 0xF x 0x07) = .instr (.getDelay x) ∧
    ∃ t, exec (.getDelay x) s = .next t ∧ readV t x = s.dt ∧ t.pc = s.pc + 2 ∧
      ChangesOnly (fun p => p = .v x ∨ p = .pc) s t

/-- R229, R230. -/
def Obligations.SetTimersFromRegister : Prop :=
  ∀ (x : Reg) (s : State),
    decode (patternXK 0xF x 0x15) = .instr (.setDelay x) ∧
    decode (patternXK 0xF x 0x18) = .instr (.setSound x) ∧
    (∃ t, exec (.setDelay x) s = .next t ∧ t.dt = readV s x ∧ t.pc = s.pc + 2 ∧
      ChangesOnly (fun p => p = .dt ∨ p = .pc) s t) ∧
    (∃ t, exec (.setSound x) s = .next t ∧ t.st = readV s x ∧ t.pc = s.pc + 2 ∧
      ChangesOnly (fun p => p = .st ∨ p = .pc) s t)
end

