-- ==== Sys2Proof/Laws/Decode.lean ====
section
/-! SUPPORT. The fields of a word as arithmetic on its value, and the value of each encoding format,
so that facts about decoding are linear arithmetic (30_encoding.md R82, R83). -/

namespace Sys2Proof

theorem fieldOp_eq (w : Word) : fieldOp w = w.toNat / 4096 := by
  have := w.isLt
  simp [fieldOp, BitVec.extractLsb'_toNat, Nat.shiftRight_eq_div_pow]; omega

theorem fieldX_val (w : Word) : (fieldX w).val = w.toNat / 256 % 16 := by
  simp [fieldX, Nat.shiftRight_eq_div_pow]

theorem fieldY_val (w : Word) : (fieldY w).val = w.toNat / 16 % 16 := by
  simp [fieldY, Nat.shiftRight_eq_div_pow]

theorem fieldN_val (w : Word) : (fieldN w).val = w.toNat % 16 := by
  simp [fieldN]

theorem fieldKk_toNat (w : Word) : (fieldKk w).toNat = w.toNat % 256 := by
  simp [fieldKk, BitVec.extractLsb'_toNat]

theorem fieldNnn_toNat (w : Word) : (fieldNnn w).toNat = w.toNat % 4096 := by
  simp [fieldNnn, BitVec.extractLsb'_toNat]

theorem toNat_encodeA {op : Nat} (h : op < 16) (nnn : BitVec 12) :
    (encodeA op nnn).toNat = op * 4096 + nnn.toNat := by
  have := nnn.isLt
  simp [encodeA]; omega

theorem toNat_encodeXK {op : Nat} (h : op < 16) (x : Reg) (kk : Byte) :
    (encodeXK op x kk).toNat = op * 4096 + x.val * 256 + kk.toNat := by
  have := kk.isLt; have := x.isLt
  simp [encodeXK]; omega

theorem toNat_encodeXYN {op n : Nat} (h : op < 16) (hn : n < 16) (x y : Reg) :
    (encodeXYN op x y n).toNat = op * 4096 + x.val * 256 + y.val * 16 + n := by
  have := x.isLt; have := y.isLt
  simp [encodeXYN]; omega

theorem toNat_encodeX {op sub : Nat} (h : op < 16) (hs : sub < 256) (x : Reg) :
    (encodeX op x sub).toNat = op * 4096 + x.val * 256 + sub := by
  have := x.isLt
  simp [encodeX]; omega

theorem highByte_toNat (w : Word) : (highByte w).toNat = w.toNat / 256 := by
  have := w.isLt
  simp [highByte, BitVec.extractLsb'_toNat, Nat.shiftRight_eq_div_pow]; omega

theorem lowByte_toNat (w : Word) : (lowByte w).toNat = w.toNat % 256 := by
  simp [lowByte, BitVec.extractLsb'_toNat]

theorem wordOfBytes_toNat (hi lo : Byte) : (wordOfBytes hi lo).toNat = hi.toNat * 256 + lo.toNat := by
  have := lo.isLt
  simp only [wordOfBytes, BitVec.toNat_append]
  rw [← Nat.shiftLeft_add_eq_or_of_lt (by omega), Nat.shiftLeft_eq]

/-- The two bytes of a word, put together again, are the word (R81). -/
theorem wordOfBytes_bytes (w : Word) : wordOfBytes (highByte w) (lowByte w) = w := by
  apply BitVec.eq_of_toNat_eq
  rw [wordOfBytes_toNat, highByte_toNat, lowByte_toNat]; omega

/-! ## The fields of a word of each format (R83) -/

theorem fields_of_A {w : Word} {op : Nat} {nnn : BitVec 12} (h : w.toNat = op * 4096 + nnn.toNat) :
    fieldOp w = op ∧ fieldNnn w = nnn := by
  have := nnn.isLt
  refine ⟨by rw [fieldOp_eq]; omega, BitVec.eq_of_toNat_eq (by rw [fieldNnn_toNat]; omega)⟩

theorem fields_of_XK {w : Word} {op : Nat} {x : Reg} {kk : Byte}
    (h : w.toNat = op * 4096 + x.val * 256 + kk.toNat) :
    fieldOp w = op ∧ fieldX w = x ∧ fieldKk w = kk := by
  have := x.isLt; have := kk.isLt
  exact ⟨by rw [fieldOp_eq]; omega, Fin.ext (by rw [fieldX_val]; omega),
    BitVec.eq_of_toNat_eq (by rw [fieldKk_toNat]; omega)⟩

theorem fields_of_XYN {w : Word} {op : Nat} {x y : Reg} {n : Fin 16}
    (h : w.toNat = op * 4096 + x.val * 256 + y.val * 16 + n.val) :
    fieldOp w = op ∧ fieldX w = x ∧ fieldY w = y ∧ fieldN w = n := by
  have := x.isLt; have := y.isLt; have := n.isLt
  exact ⟨by rw [fieldOp_eq]; omega, Fin.ext (by rw [fieldX_val]; omega),
    Fin.ext (by rw [fieldY_val]; omega), Fin.ext (by rw [fieldN_val]; omega)⟩

/-! ## Masks -/

/-- A bitwise and taken apart at bit `k`. -/
theorem land_split (n m k : Nat) :
    n &&& m = 2 ^ k * ((n / 2 ^ k) &&& (m / 2 ^ k)) + ((n % 2 ^ k) &&& (m % 2 ^ k)) := by
  have h := Nat.div_add_mod (n &&& m) (2 ^ k)
  rw [← Nat.shiftRight_eq_div_pow, Nat.shiftRight_and_distrib, Nat.and_mod_two_pow,
    Nat.shiftRight_eq_div_pow, Nat.shiftRight_eq_div_pow] at h
  exact h.symm

/-- A mask of the `k` low bits is a remainder. -/
theorem land_low (n k : Nat) : n &&& (2 ^ k - 1) = n % 2 ^ k := Nat.and_two_pow_sub_one_eq_mod n k

/-! The value of a word under each mask of the opcode table (R98). -/

theorem toNat_and_F000 (w : Word) : (w &&& 0xF000).toNat = w.toNat / 4096 * 4096 := by
  have := w.isLt
  have h1 := land_split w.toNat 0xF000 12
  have h2 := land_low (w.toNat / 4096) 4
  simp at h1 h2 ⊢
  omega

theorem toNat_and_F00F (w : Word) : (w &&& 0xF00F).toNat = w.toNat / 4096 * 4096 + w.toNat % 16 := by
  have := w.isLt
  have h1 := land_split w.toNat 0xF00F 12
  have h2 := land_low (w.toNat / 4096) 4
  have h3 := land_low (w.toNat % 4096) 4
  simp at h1 h2 h3 ⊢
  omega

theorem toNat_and_F0FF (w : Word) : (w &&& 0xF0FF).toNat = w.toNat / 4096 * 4096 + w.toNat % 256 := by
  have := w.isLt
  have h1 := land_split w.toNat 0xF0FF 12
  have h2 := land_low (w.toNat / 4096) 4
  have h3 := land_low (w.toNat % 4096) 8
  simp at h1 h2 h3 ⊢
  omega

theorem toNat_and_F8FF (w : Word) :
    (w &&& 0xF8FF).toNat = w.toNat / 2048 * 2048 + w.toNat % 256 := by
  have := w.isLt
  have h1 := land_split w.toNat 0xF8FF 11
  have h3 := land_low (w.toNat % 2048) 8
  have h2 := land_low (w.toNat / 2048) 5
  simp at h1 h2 h3 ⊢
  omega

end Sys2Proof
end

