-- ==== Sys2Proof/Laws/Display.lean ====
section
/-! SUPPORT. What the operations of the blitter do to one pixel (44_display.md R203). -/

namespace Sys2Proof.Machine

/-- Two framebuffers with the same pixels are equal. -/
theorem framebuffer_ext {a b : Framebuffer} (h : ∀ cx cy, pixel a cx cy = pixel b cx cy) : a = b := by
  apply Vector.ext
  intro y hy
  apply BitVec.eq_of_getLsbD_eq
  intro x hx
  exact h ⟨x, hx⟩ ⟨y, hy⟩

/-- Flipping a pixel changes that pixel and no other. -/
theorem pixel_flipPixel (a : Fin 64) (b : Fin 32) (fb : Framebuffer) (cx : Fin 64) (cy : Fin 32) :
    pixel (flipPixel a b fb) cx cy = (pixel fb cx cy ^^ decide (a = cx ∧ b = cy)) := by
  simp only [pixel, flipPixel, Vector.getElem_set]
  by_cases hb : b = cy
  · subst hb; simp [Fin.ext_iff, eq_comm]
  · have : b.val ≠ cy.val := fun h => hb (Fin.ext h)
    simp [this, hb]

theorem pixel_clearedFb (cx : Fin 64) (cy : Fin 32) : pixel clearedFb cx cy = false := by
  simp [pixel, clearedFb]

theorem wrapColumn_val (c : Nat) : (wrapColumn c).val = c % 64 := rfl

theorem wrapRow_val (r : Nat) : (wrapRow r).val = r % 32 := rfl

end Sys2Proof.Machine
end

