-- ==== Sys2Proof/Laws/State.lean ====
section
/-! SUPPORT. What each writing operation does to each field of the state: one lemma per field per
operation, so that no later proof unfolds a record update. -/

namespace Sys2Proof.Machine

variable (s : State)

/-! ## setV -/

@[simp] theorem setV_v (x : Reg) (b : Byte) : (setV x b s).v = s.v.set x.val b := rfl
@[simp] theorem setV_iReg (x : Reg) (b : Byte) : (setV x b s).iReg = s.iReg := rfl
@[simp] theorem setV_pc (x : Reg) (b : Byte) : (setV x b s).pc = s.pc := rfl
@[simp] theorem setV_mem (x : Reg) (b : Byte) : (setV x b s).mem = s.mem := rfl
@[simp] theorem setV_stack (x : Reg) (b : Byte) : (setV x b s).stack = s.stack := rfl
@[simp] theorem setV_dt (x : Reg) (b : Byte) : (setV x b s).dt = s.dt := rfl
@[simp] theorem setV_st (x : Reg) (b : Byte) : (setV x b s).st = s.st := rfl
@[simp] theorem setV_flg (x : Reg) (b : Byte) : (setV x b s).flg = s.flg := rfl
@[simp] theorem setV_wait (x : Reg) (b : Byte) : (setV x b s).wait = s.wait := rfl
@[simp] theorem setV_fb (x : Reg) (b : Byte) : (setV x b s).fb = s.fb := rfl
@[simp] theorem setV_cfg (x : Reg) (b : Byte) : (setV x b s).cfg = s.cfg := rfl
@[simp] theorem setV_keyQueue (x : Reg) (b : Byte) : (setV x b s).keyQueue = s.keyQueue := rfl
@[simp] theorem setV_keyDraws (x : Reg) (b : Byte) : (setV x b s).keyDraws = s.keyDraws := rfl
@[simp] theorem setV_rndQueue (x : Reg) (b : Byte) : (setV x b s).rndQueue = s.rndQueue := rfl
@[simp] theorem setV_rndDraws (x : Reg) (b : Byte) : (setV x b s).rndDraws = s.rndDraws := rfl

/-! ## setVF -/

@[simp] theorem setVF_v (b : Byte) : (setVF b s).v = s.v.set 15 b := rfl
@[simp] theorem setVF_iReg (b : Byte) : (setVF b s).iReg = s.iReg := rfl
@[simp] theorem setVF_pc (b : Byte) : (setVF b s).pc = s.pc := rfl
@[simp] theorem setVF_mem (b : Byte) : (setVF b s).mem = s.mem := rfl
@[simp] theorem setVF_stack (b : Byte) : (setVF b s).stack = s.stack := rfl
@[simp] theorem setVF_dt (b : Byte) : (setVF b s).dt = s.dt := rfl
@[simp] theorem setVF_st (b : Byte) : (setVF b s).st = s.st := rfl
@[simp] theorem setVF_flg (b : Byte) : (setVF b s).flg = s.flg := rfl
@[simp] theorem setVF_wait (b : Byte) : (setVF b s).wait = s.wait := rfl
@[simp] theorem setVF_fb (b : Byte) : (setVF b s).fb = s.fb := rfl
@[simp] theorem setVF_cfg (b : Byte) : (setVF b s).cfg = s.cfg := rfl
@[simp] theorem setVF_keyQueue (b : Byte) : (setVF b s).keyQueue = s.keyQueue := rfl
@[simp] theorem setVF_keyDraws (b : Byte) : (setVF b s).keyDraws = s.keyDraws := rfl
@[simp] theorem setVF_rndQueue (b : Byte) : (setVF b s).rndQueue = s.rndQueue := rfl
@[simp] theorem setVF_rndDraws (b : Byte) : (setVF b s).rndDraws = s.rndDraws := rfl

/-! ## setI -/

@[simp] theorem setI_v (a : Word) : (setI a s).v = s.v := rfl
@[simp] theorem setI_iReg (a : Word) : (setI a s).iReg = a := rfl
@[simp] theorem setI_pc (a : Word) : (setI a s).pc = s.pc := rfl
@[simp] theorem setI_mem (a : Word) : (setI a s).mem = s.mem := rfl
@[simp] theorem setI_stack (a : Word) : (setI a s).stack = s.stack := rfl
@[simp] theorem setI_dt (a : Word) : (setI a s).dt = s.dt := rfl
@[simp] theorem setI_st (a : Word) : (setI a s).st = s.st := rfl
@[simp] theorem setI_flg (a : Word) : (setI a s).flg = s.flg := rfl
@[simp] theorem setI_wait (a : Word) : (setI a s).wait = s.wait := rfl
@[simp] theorem setI_fb (a : Word) : (setI a s).fb = s.fb := rfl
@[simp] theorem setI_cfg (a : Word) : (setI a s).cfg = s.cfg := rfl
@[simp] theorem setI_keyQueue (a : Word) : (setI a s).keyQueue = s.keyQueue := rfl
@[simp] theorem setI_keyDraws (a : Word) : (setI a s).keyDraws = s.keyDraws := rfl
@[simp] theorem setI_rndQueue (a : Word) : (setI a s).rndQueue = s.rndQueue := rfl
@[simp] theorem setI_rndDraws (a : Word) : (setI a s).rndDraws = s.rndDraws := rfl

/-! ## setPc -/

@[simp] theorem setPc_v (a : Word) : (setPc a s).v = s.v := rfl
@[simp] theorem setPc_iReg (a : Word) : (setPc a s).iReg = s.iReg := rfl
@[simp] theorem setPc_pc (a : Word) : (setPc a s).pc = a := rfl
@[simp] theorem setPc_mem (a : Word) : (setPc a s).mem = s.mem := rfl
@[simp] theorem setPc_stack (a : Word) : (setPc a s).stack = s.stack := rfl
@[simp] theorem setPc_dt (a : Word) : (setPc a s).dt = s.dt := rfl
@[simp] theorem setPc_st (a : Word) : (setPc a s).st = s.st := rfl
@[simp] theorem setPc_flg (a : Word) : (setPc a s).flg = s.flg := rfl
@[simp] theorem setPc_wait (a : Word) : (setPc a s).wait = s.wait := rfl
@[simp] theorem setPc_fb (a : Word) : (setPc a s).fb = s.fb := rfl
@[simp] theorem setPc_cfg (a : Word) : (setPc a s).cfg = s.cfg := rfl
@[simp] theorem setPc_keyQueue (a : Word) : (setPc a s).keyQueue = s.keyQueue := rfl
@[simp] theorem setPc_keyDraws (a : Word) : (setPc a s).keyDraws = s.keyDraws := rfl
@[simp] theorem setPc_rndQueue (a : Word) : (setPc a s).rndQueue = s.rndQueue := rfl
@[simp] theorem setPc_rndDraws (a : Word) : (setPc a s).rndDraws = s.rndDraws := rfl

/-! ## advance -/

@[simp] theorem advance_v : (advance s).v = s.v := rfl
@[simp] theorem advance_iReg : (advance s).iReg = s.iReg := rfl
@[simp] theorem advance_pc : (advance s).pc = s.pc + 2 := rfl
@[simp] theorem advance_mem : (advance s).mem = s.mem := rfl
@[simp] theorem advance_stack : (advance s).stack = s.stack := rfl
@[simp] theorem advance_dt : (advance s).dt = s.dt := rfl
@[simp] theorem advance_st : (advance s).st = s.st := rfl
@[simp] theorem advance_flg : (advance s).flg = s.flg := rfl
@[simp] theorem advance_wait : (advance s).wait = s.wait := rfl
@[simp] theorem advance_fb : (advance s).fb = s.fb := rfl
@[simp] theorem advance_cfg : (advance s).cfg = s.cfg := rfl
@[simp] theorem advance_keyQueue : (advance s).keyQueue = s.keyQueue := rfl
@[simp] theorem advance_keyDraws : (advance s).keyDraws = s.keyDraws := rfl
@[simp] theorem advance_rndQueue : (advance s).rndQueue = s.rndQueue := rfl
@[simp] theorem advance_rndDraws : (advance s).rndDraws = s.rndDraws := rfl

/-! ## setDt -/

@[simp] theorem setDt_v (b : Byte) : (setDt b s).v = s.v := rfl
@[simp] theorem setDt_iReg (b : Byte) : (setDt b s).iReg = s.iReg := rfl
@[simp] theorem setDt_pc (b : Byte) : (setDt b s).pc = s.pc := rfl
@[simp] theorem setDt_mem (b : Byte) : (setDt b s).mem = s.mem := rfl
@[simp] theorem setDt_stack (b : Byte) : (setDt b s).stack = s.stack := rfl
@[simp] theorem setDt_dt (b : Byte) : (setDt b s).dt = b := rfl
@[simp] theorem setDt_st (b : Byte) : (setDt b s).st = s.st := rfl
@[simp] theorem setDt_flg (b : Byte) : (setDt b s).flg = s.flg := rfl
@[simp] theorem setDt_wait (b : Byte) : (setDt b s).wait = s.wait := rfl
@[simp] theorem setDt_fb (b : Byte) : (setDt b s).fb = s.fb := rfl
@[simp] theorem setDt_cfg (b : Byte) : (setDt b s).cfg = s.cfg := rfl
@[simp] theorem setDt_keyQueue (b : Byte) : (setDt b s).keyQueue = s.keyQueue := rfl
@[simp] theorem setDt_keyDraws (b : Byte) : (setDt b s).keyDraws = s.keyDraws := rfl
@[simp] theorem setDt_rndQueue (b : Byte) : (setDt b s).rndQueue = s.rndQueue := rfl
@[simp] theorem setDt_rndDraws (b : Byte) : (setDt b s).rndDraws = s.rndDraws := rfl

/-! ## setSt -/

@[simp] theorem setSt_v (b : Byte) : (setSt b s).v = s.v := rfl
@[simp] theorem setSt_iReg (b : Byte) : (setSt b s).iReg = s.iReg := rfl
@[simp] theorem setSt_pc (b : Byte) : (setSt b s).pc = s.pc := rfl
@[simp] theorem setSt_mem (b : Byte) : (setSt b s).mem = s.mem := rfl
@[simp] theorem setSt_stack (b : Byte) : (setSt b s).stack = s.stack := rfl
@[simp] theorem setSt_dt (b : Byte) : (setSt b s).dt = s.dt := rfl
@[simp] theorem setSt_st (b : Byte) : (setSt b s).st = b := rfl
@[simp] theorem setSt_flg (b : Byte) : (setSt b s).flg = s.flg := rfl
@[simp] theorem setSt_wait (b : Byte) : (setSt b s).wait = s.wait := rfl
@[simp] theorem setSt_fb (b : Byte) : (setSt b s).fb = s.fb := rfl
@[simp] theorem setSt_cfg (b : Byte) : (setSt b s).cfg = s.cfg := rfl
@[simp] theorem setSt_keyQueue (b : Byte) : (setSt b s).keyQueue = s.keyQueue := rfl
@[simp] theorem setSt_keyDraws (b : Byte) : (setSt b s).keyDraws = s.keyDraws := rfl
@[simp] theorem setSt_rndQueue (b : Byte) : (setSt b s).rndQueue = s.rndQueue := rfl
@[simp] theorem setSt_rndDraws (b : Byte) : (setSt b s).rndDraws = s.rndDraws := rfl

/-! ## setFlg -/

@[simp] theorem setFlg_v (k : Fin 8) (b : Byte) : (setFlg k b s).v = s.v := rfl
@[simp] theorem setFlg_iReg (k : Fin 8) (b : Byte) : (setFlg k b s).iReg = s.iReg := rfl
@[simp] theorem setFlg_pc (k : Fin 8) (b : Byte) : (setFlg k b s).pc = s.pc := rfl
@[simp] theorem setFlg_mem (k : Fin 8) (b : Byte) : (setFlg k b s).mem = s.mem := rfl
@[simp] theorem setFlg_stack (k : Fin 8) (b : Byte) : (setFlg k b s).stack = s.stack := rfl
@[simp] theorem setFlg_dt (k : Fin 8) (b : Byte) : (setFlg k b s).dt = s.dt := rfl
@[simp] theorem setFlg_st (k : Fin 8) (b : Byte) : (setFlg k b s).st = s.st := rfl
@[simp] theorem setFlg_flg (k : Fin 8) (b : Byte) : (setFlg k b s).flg = s.flg.set k.val b := rfl
@[simp] theorem setFlg_wait (k : Fin 8) (b : Byte) : (setFlg k b s).wait = s.wait := rfl
@[simp] theorem setFlg_fb (k : Fin 8) (b : Byte) : (setFlg k b s).fb = s.fb := rfl
@[simp] theorem setFlg_cfg (k : Fin 8) (b : Byte) : (setFlg k b s).cfg = s.cfg := rfl
@[simp] theorem setFlg_keyQueue (k : Fin 8) (b : Byte) : (setFlg k b s).keyQueue = s.keyQueue := rfl
@[simp] theorem setFlg_keyDraws (k : Fin 8) (b : Byte) : (setFlg k b s).keyDraws = s.keyDraws := rfl
@[simp] theorem setFlg_rndQueue (k : Fin 8) (b : Byte) : (setFlg k b s).rndQueue = s.rndQueue := rfl
@[simp] theorem setFlg_rndDraws (k : Fin 8) (b : Byte) : (setFlg k b s).rndDraws = s.rndDraws := rfl

/-! ## setWait -/

@[simp] theorem setWait_v (w : WaitState) : (setWait w s).v = s.v := rfl
@[simp] theorem setWait_iReg (w : WaitState) : (setWait w s).iReg = s.iReg := rfl
@[simp] theorem setWait_pc (w : WaitState) : (setWait w s).pc = s.pc := rfl
@[simp] theorem setWait_mem (w : WaitState) : (setWait w s).mem = s.mem := rfl
@[simp] theorem setWait_stack (w : WaitState) : (setWait w s).stack = s.stack := rfl
@[simp] theorem setWait_dt (w : WaitState) : (setWait w s).dt = s.dt := rfl
@[simp] theorem setWait_st (w : WaitState) : (setWait w s).st = s.st := rfl
@[simp] theorem setWait_flg (w : WaitState) : (setWait w s).flg = s.flg := rfl
@[simp] theorem setWait_wait (w : WaitState) : (setWait w s).wait = w := rfl
@[simp] theorem setWait_fb (w : WaitState) : (setWait w s).fb = s.fb := rfl
@[simp] theorem setWait_cfg (w : WaitState) : (setWait w s).cfg = s.cfg := rfl
@[simp] theorem setWait_keyQueue (w : WaitState) : (setWait w s).keyQueue = s.keyQueue := rfl
@[simp] theorem setWait_keyDraws (w : WaitState) : (setWait w s).keyDraws = s.keyDraws := rfl
@[simp] theorem setWait_rndQueue (w : WaitState) : (setWait w s).rndQueue = s.rndQueue := rfl
@[simp] theorem setWait_rndDraws (w : WaitState) : (setWait w s).rndDraws = s.rndDraws := rfl

/-! ## setFb -/

@[simp] theorem setFb_v (fb : Framebuffer) : (setFb fb s).v = s.v := rfl
@[simp] theorem setFb_iReg (fb : Framebuffer) : (setFb fb s).iReg = s.iReg := rfl
@[simp] theorem setFb_pc (fb : Framebuffer) : (setFb fb s).pc = s.pc := rfl
@[simp] theorem setFb_mem (fb : Framebuffer) : (setFb fb s).mem = s.mem := rfl
@[simp] theorem setFb_stack (fb : Framebuffer) : (setFb fb s).stack = s.stack := rfl
@[simp] theorem setFb_dt (fb : Framebuffer) : (setFb fb s).dt = s.dt := rfl
@[simp] theorem setFb_st (fb : Framebuffer) : (setFb fb s).st = s.st := rfl
@[simp] theorem setFb_flg (fb : Framebuffer) : (setFb fb s).flg = s.flg := rfl
@[simp] theorem setFb_wait (fb : Framebuffer) : (setFb fb s).wait = s.wait := rfl
@[simp] theorem setFb_fb (fb : Framebuffer) : (setFb fb s).fb = fb := rfl
@[simp] theorem setFb_cfg (fb : Framebuffer) : (setFb fb s).cfg = s.cfg := rfl
@[simp] theorem setFb_keyQueue (fb : Framebuffer) : (setFb fb s).keyQueue = s.keyQueue := rfl
@[simp] theorem setFb_keyDraws (fb : Framebuffer) : (setFb fb s).keyDraws = s.keyDraws := rfl
@[simp] theorem setFb_rndQueue (fb : Framebuffer) : (setFb fb s).rndQueue = s.rndQueue := rfl
@[simp] theorem setFb_rndDraws (fb : Framebuffer) : (setFb fb s).rndDraws = s.rndDraws := rfl

/-! ## writeByte -/

@[simp] theorem writeByte_v (a : Nat) (b : Byte) : (writeByte a b s).v = s.v := rfl
@[simp] theorem writeByte_iReg (a : Nat) (b : Byte) : (writeByte a b s).iReg = s.iReg := rfl
@[simp] theorem writeByte_pc (a : Nat) (b : Byte) : (writeByte a b s).pc = s.pc := rfl
@[simp] theorem writeByte_mem (a : Nat) (b : Byte) : (writeByte a b s).mem = Memory.write s.cfg.font s.mem a b := rfl
@[simp] theorem writeByte_stack (a : Nat) (b : Byte) : (writeByte a b s).stack = s.stack := rfl
@[simp] theorem writeByte_dt (a : Nat) (b : Byte) : (writeByte a b s).dt = s.dt := rfl
@[simp] theorem writeByte_st (a : Nat) (b : Byte) : (writeByte a b s).st = s.st := rfl
@[simp] theorem writeByte_flg (a : Nat) (b : Byte) : (writeByte a b s).flg = s.flg := rfl
@[simp] theorem writeByte_wait (a : Nat) (b : Byte) : (writeByte a b s).wait = s.wait := rfl
@[simp] theorem writeByte_fb (a : Nat) (b : Byte) : (writeByte a b s).fb = s.fb := rfl
@[simp] theorem writeByte_cfg (a : Nat) (b : Byte) : (writeByte a b s).cfg = s.cfg := rfl
@[simp] theorem writeByte_keyQueue (a : Nat) (b : Byte) : (writeByte a b s).keyQueue = s.keyQueue := rfl
@[simp] theorem writeByte_keyDraws (a : Nat) (b : Byte) : (writeByte a b s).keyDraws = s.keyDraws := rfl
@[simp] theorem writeByte_rndQueue (a : Nat) (b : Byte) : (writeByte a b s).rndQueue = s.rndQueue := rfl
@[simp] theorem writeByte_rndDraws (a : Nat) (b : Byte) : (writeByte a b s).rndDraws = s.rndDraws := rfl

/-! ## push -/

@[simp] theorem push_v (a : Word) : (push a s).v = s.v := rfl
@[simp] theorem push_iReg (a : Word) : (push a s).iReg = s.iReg := rfl
@[simp] theorem push_pc (a : Word) : (push a s).pc = s.pc := rfl
@[simp] theorem push_mem (a : Word) : (push a s).mem = s.mem := rfl
@[simp] theorem push_stack (a : Word) : (push a s).stack = s.stack ++ [a] := rfl
@[simp] theorem push_dt (a : Word) : (push a s).dt = s.dt := rfl
@[simp] theorem push_st (a : Word) : (push a s).st = s.st := rfl
@[simp] theorem push_flg (a : Word) : (push a s).flg = s.flg := rfl
@[simp] theorem push_wait (a : Word) : (push a s).wait = s.wait := rfl
@[simp] theorem push_fb (a : Word) : (push a s).fb = s.fb := rfl
@[simp] theorem push_cfg (a : Word) : (push a s).cfg = s.cfg := rfl
@[simp] theorem push_keyQueue (a : Word) : (push a s).keyQueue = s.keyQueue := rfl
@[simp] theorem push_keyDraws (a : Word) : (push a s).keyDraws = s.keyDraws := rfl
@[simp] theorem push_rndQueue (a : Word) : (push a s).rndQueue = s.rndQueue := rfl
@[simp] theorem push_rndDraws (a : Word) : (push a s).rndDraws = s.rndDraws := rfl

/-! ## dropTop -/

@[simp] theorem dropTop_v : (dropTop s).v = s.v := rfl
@[simp] theorem dropTop_iReg : (dropTop s).iReg = s.iReg := rfl
@[simp] theorem dropTop_pc : (dropTop s).pc = s.pc := rfl
@[simp] theorem dropTop_mem : (dropTop s).mem = s.mem := rfl
@[simp] theorem dropTop_stack : (dropTop s).stack = s.stack.dropLast := rfl
@[simp] theorem dropTop_dt : (dropTop s).dt = s.dt := rfl
@[simp] theorem dropTop_st : (dropTop s).st = s.st := rfl
@[simp] theorem dropTop_flg : (dropTop s).flg = s.flg := rfl
@[simp] theorem dropTop_wait : (dropTop s).wait = s.wait := rfl
@[simp] theorem dropTop_fb : (dropTop s).fb = s.fb := rfl
@[simp] theorem dropTop_cfg : (dropTop s).cfg = s.cfg := rfl
@[simp] theorem dropTop_keyQueue : (dropTop s).keyQueue = s.keyQueue := rfl
@[simp] theorem dropTop_keyDraws : (dropTop s).keyDraws = s.keyDraws := rfl
@[simp] theorem dropTop_rndQueue : (dropTop s).rndQueue = s.rndQueue := rfl
@[simp] theorem dropTop_rndDraws : (dropTop s).rndDraws = s.rndDraws := rfl

/-! ## takeKeys -/

@[simp] theorem takeKeys_v : (takeKeys s).v = s.v := rfl
@[simp] theorem takeKeys_iReg : (takeKeys s).iReg = s.iReg := rfl
@[simp] theorem takeKeys_pc : (takeKeys s).pc = s.pc := rfl
@[simp] theorem takeKeys_mem : (takeKeys s).mem = s.mem := rfl
@[simp] theorem takeKeys_stack : (takeKeys s).stack = s.stack := rfl
@[simp] theorem takeKeys_dt : (takeKeys s).dt = s.dt := rfl
@[simp] theorem takeKeys_st : (takeKeys s).st = s.st := rfl
@[simp] theorem takeKeys_flg : (takeKeys s).flg = s.flg := rfl
@[simp] theorem takeKeys_wait : (takeKeys s).wait = s.wait := rfl
@[simp] theorem takeKeys_fb : (takeKeys s).fb = s.fb := rfl
@[simp] theorem takeKeys_cfg : (takeKeys s).cfg = s.cfg := rfl
@[simp] theorem takeKeys_keyQueue : (takeKeys s).keyQueue = s.keyQueue.tail := rfl
@[simp] theorem takeKeys_keyDraws : (takeKeys s).keyDraws = s.keyDraws + 1 := rfl
@[simp] theorem takeKeys_rndQueue : (takeKeys s).rndQueue = s.rndQueue := rfl
@[simp] theorem takeKeys_rndDraws : (takeKeys s).rndDraws = s.rndDraws := rfl

/-! ## takeRandom -/

@[simp] theorem takeRandom_v : (takeRandom s).v = s.v := rfl
@[simp] theorem takeRandom_iReg : (takeRandom s).iReg = s.iReg := rfl
@[simp] theorem takeRandom_pc : (takeRandom s).pc = s.pc := rfl
@[simp] theorem takeRandom_mem : (takeRandom s).mem = s.mem := rfl
@[simp] theorem takeRandom_stack : (takeRandom s).stack = s.stack := rfl
@[simp] theorem takeRandom_dt : (takeRandom s).dt = s.dt := rfl
@[simp] theorem takeRandom_st : (takeRandom s).st = s.st := rfl
@[simp] theorem takeRandom_flg : (takeRandom s).flg = s.flg := rfl
@[simp] theorem takeRandom_wait : (takeRandom s).wait = s.wait := rfl
@[simp] theorem takeRandom_fb : (takeRandom s).fb = s.fb := rfl
@[simp] theorem takeRandom_cfg : (takeRandom s).cfg = s.cfg := rfl
@[simp] theorem takeRandom_keyQueue : (takeRandom s).keyQueue = s.keyQueue := rfl
@[simp] theorem takeRandom_keyDraws : (takeRandom s).keyDraws = s.keyDraws := rfl
@[simp] theorem takeRandom_rndQueue : (takeRandom s).rndQueue = s.rndQueue.tail := rfl
@[simp] theorem takeRandom_rndDraws : (takeRandom s).rndDraws = s.rndDraws + 1 := rfl

/-! ## skipIf -/

@[simp] theorem skipIf_v (c : Bool) : (skipIf c s).v = s.v := by cases c <;> rfl
@[simp] theorem skipIf_iReg (c : Bool) : (skipIf c s).iReg = s.iReg := by cases c <;> rfl
@[simp] theorem skipIf_pc (c : Bool) : (skipIf c s).pc = if c then s.pc + 4 else s.pc + 2 := by
  cases c <;> simp [skipIf, advance, setPc, BitVec.add_assoc]
@[simp] theorem skipIf_mem (c : Bool) : (skipIf c s).mem = s.mem := by cases c <;> rfl
@[simp] theorem skipIf_stack (c : Bool) : (skipIf c s).stack = s.stack := by cases c <;> rfl
@[simp] theorem skipIf_dt (c : Bool) : (skipIf c s).dt = s.dt := by cases c <;> rfl
@[simp] theorem skipIf_st (c : Bool) : (skipIf c s).st = s.st := by cases c <;> rfl
@[simp] theorem skipIf_flg (c : Bool) : (skipIf c s).flg = s.flg := by cases c <;> rfl
@[simp] theorem skipIf_wait (c : Bool) : (skipIf c s).wait = s.wait := by cases c <;> rfl
@[simp] theorem skipIf_fb (c : Bool) : (skipIf c s).fb = s.fb := by cases c <;> rfl
@[simp] theorem skipIf_cfg (c : Bool) : (skipIf c s).cfg = s.cfg := by cases c <;> rfl
@[simp] theorem skipIf_keyQueue (c : Bool) : (skipIf c s).keyQueue = s.keyQueue := by cases c <;> rfl
@[simp] theorem skipIf_keyDraws (c : Bool) : (skipIf c s).keyDraws = s.keyDraws := by cases c <;> rfl
@[simp] theorem skipIf_rndQueue (c : Bool) : (skipIf c s).rndQueue = s.rndQueue := by cases c <;> rfl
@[simp] theorem skipIf_rndDraws (c : Bool) : (skipIf c s).rndDraws = s.rndDraws := by cases c <;> rfl

/-! ## bumpI -/

@[simp] theorem bumpI_v (x : Reg) : (bumpI x s).v = s.v := by simp only [bumpI]; split <;> rfl
@[simp] theorem bumpI_iReg (x : Reg) : (bumpI x s).iReg = if s.cfg.memOpsIncrementI then BitVec.ofNat 16 (s.iReg.toNat + x.val + 1) else s.iReg := by
  simp only [bumpI]; split <;> rfl
@[simp] theorem bumpI_pc (x : Reg) : (bumpI x s).pc = s.pc := by simp only [bumpI]; split <;> rfl
@[simp] theorem bumpI_mem (x : Reg) : (bumpI x s).mem = s.mem := by simp only [bumpI]; split <;> rfl
@[simp] theorem bumpI_stack (x : Reg) : (bumpI x s).stack = s.stack := by simp only [bumpI]; split <;> rfl
@[simp] theorem bumpI_dt (x : Reg) : (bumpI x s).dt = s.dt := by simp only [bumpI]; split <;> rfl
@[simp] theorem bumpI_st (x : Reg) : (bumpI x s).st = s.st := by simp only [bumpI]; split <;> rfl
@[simp] theorem bumpI_flg (x : Reg) : (bumpI x s).flg = s.flg := by simp only [bumpI]; split <;> rfl
@[simp] theorem bumpI_wait (x : Reg) : (bumpI x s).wait = s.wait := by simp only [bumpI]; split <;> rfl
@[simp] theorem bumpI_fb (x : Reg) : (bumpI x s).fb = s.fb := by simp only [bumpI]; split <;> rfl
@[simp] theorem bumpI_cfg (x : Reg) : (bumpI x s).cfg = s.cfg := by simp only [bumpI]; split <;> rfl
@[simp] theorem bumpI_keyQueue (x : Reg) : (bumpI x s).keyQueue = s.keyQueue := by simp only [bumpI]; split <;> rfl
@[simp] theorem bumpI_keyDraws (x : Reg) : (bumpI x s).keyDraws = s.keyDraws := by simp only [bumpI]; split <;> rfl
@[simp] theorem bumpI_rndQueue (x : Reg) : (bumpI x s).rndQueue = s.rndQueue := by simp only [bumpI]; split <;> rfl
@[simp] theorem bumpI_rndDraws (x : Reg) : (bumpI x s).rndDraws = s.rndDraws := by simp only [bumpI]; split <;> rfl

/-! ## Reading one register, cell or byte after an operation -/

@[simp] theorem readV_setV (x y : Reg) (b : Byte) :
    readV (setV x b s) y = if x = y then b else readV s y := by
  simp [readV, setV, Vector.getElem_set, Fin.ext_iff]

@[simp] theorem readV_setVF (y : Reg) (b : Byte) :
    readV (setVF b s) y = if vf = y then b else readV s y := readV_setV s vf y b

@[simp] theorem readFlg_setFlg (k j : Fin 8) (b : Byte) :
    readFlg (setFlg k b s) j = if k = j then b else readFlg s j := by
  simp [readFlg, setFlg, Vector.getElem_set, Fin.ext_iff]

@[simp] theorem readByte_setV (x : Reg) (b : Byte) (z : Nat) : readByte (setV x b s) z = readByte s z := rfl
@[simp] theorem readFlg_setV (x : Reg) (b : Byte) (z : Fin 8) : readFlg (setV x b s) z = readFlg s z := rfl
@[simp] theorem readByte_setVF (b : Byte) (z : Nat) : readByte (setVF b s) z = readByte s z := rfl
@[simp] theorem readFlg_setVF (b : Byte) (z : Fin 8) : readFlg (setVF b s) z = readFlg s z := rfl
@[simp] theorem readV_setI (a : Word) (z : Reg) : readV (setI a s) z = readV s z := rfl
@[simp] theorem readByte_setI (a : Word) (z : Nat) : readByte (setI a s) z = readByte s z := rfl
@[simp] theorem readFlg_setI (a : Word) (z : Fin 8) : readFlg (setI a s) z = readFlg s z := rfl
@[simp] theorem readV_setPc (a : Word) (z : Reg) : readV (setPc a s) z = readV s z := rfl
@[simp] theorem readByte_setPc (a : Word) (z : Nat) : readByte (setPc a s) z = readByte s z := rfl
@[simp] theorem readFlg_setPc (a : Word) (z : Fin 8) : readFlg (setPc a s) z = readFlg s z := rfl
@[simp] theorem readV_advance (z : Reg) : readV (advance s) z = readV s z := rfl
@[simp] theorem readByte_advance (z : Nat) : readByte (advance s) z = readByte s z := rfl
@[simp] theorem readFlg_advance (z : Fin 8) : readFlg (advance s) z = readFlg s z := rfl
@[simp] theorem readV_setDt (b : Byte) (z : Reg) : readV (setDt b s) z = readV s z := rfl
@[simp] theorem readByte_setDt (b : Byte) (z : Nat) : readByte (setDt b s) z = readByte s z := rfl
@[simp] theorem readFlg_setDt (b : Byte) (z : Fin 8) : readFlg (setDt b s) z = readFlg s z := rfl
@[simp] theorem readV_setSt (b : Byte) (z : Reg) : readV (setSt b s) z = readV s z := rfl
@[simp] theorem readByte_setSt (b : Byte) (z : Nat) : readByte (setSt b s) z = readByte s z := rfl
@[simp] theorem readFlg_setSt (b : Byte) (z : Fin 8) : readFlg (setSt b s) z = readFlg s z := rfl
@[simp] theorem readV_setFlg (k : Fin 8) (b : Byte) (z : Reg) : readV (setFlg k b s) z = readV s z := rfl
@[simp] theorem readByte_setFlg (k : Fin 8) (b : Byte) (z : Nat) : readByte (setFlg k b s) z = readByte s z := rfl
@[simp] theorem readV_setWait (w : WaitState) (z : Reg) : readV (setWait w s) z = readV s z := rfl
@[simp] theorem readByte_setWait (w : WaitState) (z : Nat) : readByte (setWait w s) z = readByte s z := rfl
@[simp] theorem readFlg_setWait (w : WaitState) (z : Fin 8) : readFlg (setWait w s) z = readFlg s z := rfl
@[simp] theorem readV_setFb (fb : Framebuffer) (z : Reg) : readV (setFb fb s) z = readV s z := rfl
@[simp] theorem readByte_setFb (fb : Framebuffer) (z : Nat) : readByte (setFb fb s) z = readByte s z := rfl
@[simp] theorem readFlg_setFb (fb : Framebuffer) (z : Fin 8) : readFlg (setFb fb s) z = readFlg s z := rfl
@[simp] theorem readV_writeByte (a : Nat) (b : Byte) (z : Reg) : readV (writeByte a b s) z = readV s z := rfl
@[simp] theorem readFlg_writeByte (a : Nat) (b : Byte) (z : Fin 8) : readFlg (writeByte a b s) z = readFlg s z := rfl
@[simp] theorem readV_push (a : Word) (z : Reg) : readV (push a s) z = readV s z := rfl
@[simp] theorem readByte_push (a : Word) (z : Nat) : readByte (push a s) z = readByte s z := rfl
@[simp] theorem readFlg_push (a : Word) (z : Fin 8) : readFlg (push a s) z = readFlg s z := rfl
@[simp] theorem readV_dropTop (z : Reg) : readV (dropTop s) z = readV s z := rfl
@[simp] theorem readByte_dropTop (z : Nat) : readByte (dropTop s) z = readByte s z := rfl
@[simp] theorem readFlg_dropTop (z : Fin 8) : readFlg (dropTop s) z = readFlg s z := rfl
@[simp] theorem readV_takeKeys (z : Reg) : readV (takeKeys s) z = readV s z := rfl
@[simp] theorem readByte_takeKeys (z : Nat) : readByte (takeKeys s) z = readByte s z := rfl
@[simp] theorem readFlg_takeKeys (z : Fin 8) : readFlg (takeKeys s) z = readFlg s z := rfl
@[simp] theorem readV_takeRandom (z : Reg) : readV (takeRandom s) z = readV s z := rfl
@[simp] theorem readByte_takeRandom (z : Nat) : readByte (takeRandom s) z = readByte s z := rfl
@[simp] theorem readFlg_takeRandom (z : Fin 8) : readFlg (takeRandom s) z = readFlg s z := rfl
@[simp] theorem readV_skipIf (c : Bool) (z : Reg) : readV (skipIf c s) z = readV s z := by simp [readV]
@[simp] theorem readByte_skipIf (c : Bool) (z : Nat) : readByte (skipIf c s) z = readByte s z := by simp [readByte]
@[simp] theorem readFlg_skipIf (c : Bool) (z : Fin 8) : readFlg (skipIf c s) z = readFlg s z := by simp [readFlg]
@[simp] theorem readV_bumpI (x : Reg) (z : Reg) : readV (bumpI x s) z = readV s z := by simp [readV]
@[simp] theorem readByte_bumpI (x : Reg) (z : Nat) : readByte (bumpI x s) z = readByte s z := by simp [readByte]
@[simp] theorem readFlg_bumpI (x : Reg) (z : Fin 8) : readFlg (bumpI x s) z = readFlg s z := by simp [readFlg]

end Sys2Proof.Machine
end

