-- ==== Sys2Proof/Laws/Memory.lean ====
section
/-! SUPPORT. The laws of memory: a read gives what was last written there, a write leaves every other
byte alone, and every operation keeps the canonical form (20_memory.md R61, R63). -/

namespace Sys2Proof.Machine

variable {font : Vector Byte 80} {m m' : Memory}

theorem Memory.lookup_insert (m : Memory) (a : Nat) (b : Byte) (c : Nat) :
    Memory.lookup (Memory.insert m a b) c = if a = c then some b else Memory.lookup m c := by
  induction m with
  | nil => simp [Memory.insert, Memory.lookup]
  | cons e m ih =>
    obtain ⟨k, d⟩ := e
    simp only [Memory.insert]
    split
    · simp [Memory.lookup]
    · split
      · subst_vars; simp only [Memory.lookup]; split <;> rfl
      · simp only [Memory.lookup, ih]
        by_cases hk : k = c
        · simp [hk]; omega
        · simp [hk]

theorem Memory.lookup_remove (m : Memory) (a c : Nat) :
    Memory.lookup (Memory.remove m a) c = if a = c then none else Memory.lookup m c := by
  induction m with
  | nil => simp [Memory.remove, Memory.lookup]
  | cons e m ih =>
    obtain ⟨k, d⟩ := e
    simp only [Memory.remove] at ih ⊢
    by_cases hk : k = a
    · subst hk; simp only [List.filter, ne_eq, not_true_eq_false, decide_false, ih, Memory.lookup]
      split <;> rfl
    · simp only [List.filter, ne_eq, hk, not_false_eq_true, decide_true, Memory.lookup, ih]
      by_cases hc : k = c
      · simp [hc]; omega
      · simp [hc]

/-- Read after write, for every list of cells. -/
theorem Memory.read_write (font : Vector Byte 80) (m : Memory) (a : Nat) (b : Byte) (c : Nat) :
    Memory.read font (Memory.write font m a b) c = if a = c then b else Memory.read font m c := by
  simp only [Memory.read, Memory.write]
  split
  · rw [Memory.lookup_remove]; by_cases h : a = c
    · subst h; simp [*]
    · simp [h]
  · rw [Memory.lookup_insert]; by_cases h : a = c <;> simp [h]

theorem Memory.mem_insert {e : Host.Cell} {a : Nat} {b : Byte} (h : e ∈ Memory.insert m a b) :
    e = (a, b) ∨ e ∈ m := by
  induction m with
  | nil => simpa [Memory.insert] using h
  | cons d m ih =>
    simp only [Memory.insert] at h
    split at h
    · simpa using h
    · split at h
      · rcases List.mem_cons.1 h with h | h
        · exact .inl h
        · exact .inr (List.mem_cons_of_mem _ h)
      · rcases List.mem_cons.1 h with h | h
        · exact .inr (h ▸ List.mem_cons_self)
        · exact (ih h).imp id (List.mem_cons_of_mem _)

theorem Memory.insert_rising {a : Nat} {b : Byte} (h : m.Pairwise fun c d => c.1 < d.1) :
    (Memory.insert m a b).Pairwise fun c d => c.1 < d.1 := by
  induction m with
  | nil => simp [Memory.insert]
  | cons d m ih =>
    rw [List.pairwise_cons] at h
    simp only [Memory.insert]
    split
    · refine List.pairwise_cons.2 ⟨fun e he => ?_, List.pairwise_cons.2 h⟩
      rcases List.mem_cons.1 he with rfl | he
      · assumption
      · exact Nat.lt_trans ‹_› (h.1 e he)
    · split
      · subst_vars; exact List.pairwise_cons.2 h
      · refine List.pairwise_cons.2 ⟨fun e he => ?_, ih h.2⟩
        rcases Memory.mem_insert he with rfl | he
        · show d.1 < a; omega
        · exact h.1 e he

theorem Memory.wf_nil (font : Vector Byte 80) : Memory.wf font [] := by simp [Memory.wf]

theorem Memory.wf_remove (h : Memory.wf font m) (a : Nat) : Memory.wf font (Memory.remove m a) :=
  ⟨h.1.filter _, fun c hc => h.2 c (List.mem_filter.1 hc).1⟩

theorem Memory.wf_insert (h : Memory.wf font m) {a : Nat} {b : Byte} (ha : a < memSize)
    (hb : b ≠ blankByte font a) : Memory.wf font (Memory.insert m a b) := by
  refine ⟨Memory.insert_rising h.1, fun c hc => ?_⟩
  rcases Memory.mem_insert hc with rfl | hc
  · exact ⟨ha, hb⟩
  · exact h.2 c hc

/-- A write inside `MEM` keeps the canonical form. -/
theorem Memory.wf_write (h : Memory.wf font m) {a : Nat} (ha : a < memSize) (b : Byte) :
    Memory.wf font (Memory.write font m a b) := by
  simp only [Memory.write]; split
  · exact Memory.wf_remove h a
  · exact Memory.wf_insert h ha ‹_›

theorem Memory.lookup_none_of_lt {a : Nat} (h : ∀ c ∈ m, a < c.1) : Memory.lookup m a = none := by
  induction m with
  | nil => rfl
  | cons d m ih =>
    have := h d List.mem_cons_self
    simp only [Memory.lookup, show d.1 ≠ a by omega, if_false]
    exact ih fun c hc => h c (List.mem_cons_of_mem _ hc)

/-- Two memories in canonical form with equal bytes are equal lists. -/
theorem Memory.ext_of_read (h : Memory.wf font m) (h' : Memory.wf font m')
    (hr : ∀ a, Memory.read font m a = Memory.read font m' a) : m = m' := by
  -- the first entry of a canonical list is the lowest address that differs from its blank byte
  have blank_below : ∀ {m : Memory} {a : Nat}, (∀ c ∈ m, a < c.1) →
      Memory.read font m a = blankByte font a := fun hm => by
    simp [Memory.read, Memory.lookup_none_of_lt hm]
  have head_read : ∀ {d : Host.Cell} {m : Memory}, Memory.read font (d :: m) d.1 = d.2 := by
    simp [Memory.read, Memory.lookup]
  have tail_read : ∀ {d : Host.Cell} {m : Memory} {a : Nat}, d.1 ≠ a →
      Memory.read font (d :: m) a = Memory.read font m a := fun hd => by
    simp [Memory.read, Memory.lookup, hd]
  induction m generalizing m' with
  | nil =>
    cases m' with
    | nil => rfl
    | cons d m' =>
      have := hr d.1
      rw [head_read, blank_below (by simp)] at this
      exact absurd this.symm (h'.2 d List.mem_cons_self).2
  | cons d m ih =>
    obtain ⟨hp, hc⟩ := h
    rw [List.pairwise_cons] at hp
    have hd := (hc d List.mem_cons_self).2
    cases m' with
    | nil =>
      have := hr d.1
      rw [head_read, blank_below (by simp)] at this
      exact absurd this hd
    | cons e m' =>
      obtain ⟨hp', hc'⟩ := h'
      rw [List.pairwise_cons] at hp'
      have he := (hc' e List.mem_cons_self).2
      have hde : d.1 = e.1 := by
        rcases Nat.lt_trichotomy d.1 e.1 with hlt | heq | hgt
        · have := hr d.1
          rw [head_read, blank_below (m := e :: m') (fun c hm => by
            rcases List.mem_cons.1 hm with rfl | hm
            · exact hlt
            · exact Nat.lt_trans hlt (hp'.1 c hm))] at this
          exact absurd this hd
        · exact heq
        · have := hr e.1
          rw [head_read, blank_below (m := d :: m) (fun c hm => by
            rcases List.mem_cons.1 hm with rfl | hm
            · exact hgt
            · exact Nat.lt_trans hgt (hp.1 c hm))] at this
          exact absurd this.symm he
      have hval : d.2 = e.2 := by
        have := hr d.1
        rwa [head_read, hde, head_read] at this
      have hrest : m = m' := by
        refine ih ⟨hp.2, fun c hm => hc c (List.mem_cons_of_mem _ hm)⟩
          ⟨hp'.2, fun c hm => hc' c (List.mem_cons_of_mem _ hm)⟩ fun a => ?_
        by_cases ha : d.1 = a
        · subst ha
          rw [blank_below fun c hm => hp.1 c hm, blank_below fun c hm => hde ▸ hp'.1 c hm]
        · rw [← tail_read (d := d) ha, hr a, tail_read (hde ▸ ha)]
      rw [hrest, Prod.ext hde hval]

/-! ## Bytes of the state -/

@[simp] theorem readByte_writeByte (s : State) (a : Nat) (b : Byte) (c : Nat) :
    readByte (writeByte a b s) c = if a = c then b else readByte s c :=
  Memory.read_write s.cfg.font s.mem a b c

/-- `writeBytes` touches memory only. -/
theorem writeBytes_eq (bytes : List Byte) (a : Nat) (s : State) :
    writeBytes a bytes s = { s with mem := (writeBytes a bytes s).mem } := by
  induction bytes generalizing a s with
  | nil => rfl
  | cons b rest ih => rw [writeBytes, ih]; rfl

@[simp] theorem writeBytes_v (bytes : List Byte) (a : Nat) (s : State) :
    (writeBytes a bytes s).v = s.v := by rw [writeBytes_eq]

@[simp] theorem writeBytes_iReg (bytes : List Byte) (a : Nat) (s : State) :
    (writeBytes a bytes s).iReg = s.iReg := by rw [writeBytes_eq]

@[simp] theorem writeBytes_pc (bytes : List Byte) (a : Nat) (s : State) :
    (writeBytes a bytes s).pc = s.pc := by rw [writeBytes_eq]

@[simp] theorem writeBytes_stack (bytes : List Byte) (a : Nat) (s : State) :
    (writeBytes a bytes s).stack = s.stack := by rw [writeBytes_eq]

@[simp] theorem writeBytes_dt (bytes : List Byte) (a : Nat) (s : State) :
    (writeBytes a bytes s).dt = s.dt := by rw [writeBytes_eq]

@[simp] theorem writeBytes_st (bytes : List Byte) (a : Nat) (s : State) :
    (writeBytes a bytes s).st = s.st := by rw [writeBytes_eq]

@[simp] theorem writeBytes_flg (bytes : List Byte) (a : Nat) (s : State) :
    (writeBytes a bytes s).flg = s.flg := by rw [writeBytes_eq]

@[simp] theorem writeBytes_wait (bytes : List Byte) (a : Nat) (s : State) :
    (writeBytes a bytes s).wait = s.wait := by rw [writeBytes_eq]

@[simp] theorem writeBytes_fb (bytes : List Byte) (a : Nat) (s : State) :
    (writeBytes a bytes s).fb = s.fb := by rw [writeBytes_eq]

@[simp] theorem writeBytes_cfg (bytes : List Byte) (a : Nat) (s : State) :
    (writeBytes a bytes s).cfg = s.cfg := by rw [writeBytes_eq]

@[simp] theorem writeBytes_keyQueue (bytes : List Byte) (a : Nat) (s : State) :
    (writeBytes a bytes s).keyQueue = s.keyQueue := by rw [writeBytes_eq]

@[simp] theorem writeBytes_keyDraws (bytes : List Byte) (a : Nat) (s : State) :
    (writeBytes a bytes s).keyDraws = s.keyDraws := by rw [writeBytes_eq]

@[simp] theorem writeBytes_rndQueue (bytes : List Byte) (a : Nat) (s : State) :
    (writeBytes a bytes s).rndQueue = s.rndQueue := by rw [writeBytes_eq]

@[simp] theorem writeBytes_rndDraws (bytes : List Byte) (a : Nat) (s : State) :
    (writeBytes a bytes s).rndDraws = s.rndDraws := by rw [writeBytes_eq]

@[simp] theorem readV_writeBytes (bytes : List Byte) (a : Nat) (s : State) (x : Reg) :
    readV (writeBytes a bytes s) x = readV s x := by rw [writeBytes_eq]; rfl

@[simp] theorem readFlg_writeBytes (bytes : List Byte) (a : Nat) (s : State) (k : Fin 8) :
    readFlg (writeBytes a bytes s) k = readFlg s k := by rw [writeBytes_eq]; rfl

/-- What a byte reads as after bytes were written to ascending addresses. -/
theorem readByte_writeBytes (bytes : List Byte) (a : Nat) (s : State) (c : Nat) :
    readByte (writeBytes a bytes s) c =
      if a ≤ c ∧ c < a + bytes.length then bytes.getD (c - a) 0 else readByte s c := by
  induction bytes generalizing a s with
  | nil => simp [writeBytes]
  | cons b rest ih =>
    simp only [writeBytes, ih, readByte_writeByte, List.length_cons]
    rcases Nat.lt_trichotomy a c with h | h | h
    · have hc : c - a = (c - (a + 1)) + 1 := by omega
      simp only [show a ≠ c by omega, if_false, hc, List.getD_cons_succ]
      split <;> split <;> first | rfl | omega
    · subst h; simp
    · simp only [show a ≠ c by omega, if_false]
      split <;> split <;> first | rfl | omega

/-- Writes inside `MEM` keep the canonical form. -/
theorem wf_writeBytes (bytes : List Byte) (a : Nat) (s : State)
    (h : Memory.wf s.cfg.font s.mem) (ha : a + bytes.length ≤ memSize) :
    Memory.wf s.cfg.font (writeBytes a bytes s).mem := by
  induction bytes generalizing a s with
  | nil => exact h
  | cons b rest ih =>
    simp only [List.length_cons] at ha
    exact ih (a + 1) (writeByte a b s) (Memory.wf_write h (by omega) b) (by omega)

end Sys2Proof.Machine
end

