-- ==== Sys2Proof/Laws/Ops.lean ====
section
/-! SUPPORT. What each shared operation of the machine can do, said once: the range check, fetching,
the loops over registers and cells, the stack, the key poll, and the step as a whole. -/

namespace Sys2Proof.Machine

variable {s t : State} {e : Fault} {i : Instr}

/-! ## The range check (R58, R60) -/

theorem firstBadAddress_none {base count : Nat} :
    firstBadAddress base count = none ↔ base + count ≤ memSize ∨ count = 0 := by
  simp only [firstBadAddress]; split <;> simp_all

theorem firstBadAddress_some {base count a : Nat} :
    firstBadAddress base count = some a ↔ (memSize < base + count ∧ count ≠ 0) ∧ a = max base memSize := by
  simp only [firstBadAddress]; split <;> rename_i h
  · simp; omega
  · simp only [Option.some.injEq]
    exact ⟨fun h' => ⟨by omega, h'.symm⟩, fun h' => h'.2.symm⟩

theorem checkRange_ok {base count : Nat} (h : base + count ≤ memSize ∨ count = 0) (go : StepOutcome) :
    checkRange base count go = go := by
  simp only [checkRange, firstBadAddress_none.2 h]

theorem checkRange_bad {base count : Nat} (h : memSize < base + count) (hc : count ≠ 0) (go : StepOutcome) :
    checkRange base count go = .fault (.addressError (max base memSize)) := by
  simp only [checkRange, firstBadAddress_some.2 ⟨⟨h, hc⟩, rfl⟩, raise]

/-- If a checked access answers at all, either the range was good or the error says where it was bad. -/
theorem checkRange_cases (base count : Nat) (go : StepOutcome) :
    ((base + count ≤ memSize ∨ count = 0) ∧ checkRange base count go = go) ∨
    ((memSize < base + count ∧ count ≠ 0) ∧
      checkRange base count go = .fault (.addressError (max base memSize))) := by
  by_cases h : base + count ≤ memSize ∨ count = 0
  · exact .inl ⟨h, checkRange_ok h go⟩
  · exact .inr ⟨by omega, checkRange_bad (by omega) (by omega) go⟩

/-! ## Loops (R184 to R187) -/

/-- A loop keeps what every one of its steps keeps. -/
theorem ascending_keeps (P : State → Prop) (n : Nat) (body : Nat → State → State) (s : State)
    (h : ∀ k s, k < n → P s → P (body k s)) (hs : P s) : P (ascending n body s) := by
  induction n with
  | zero => exact hs
  | succ n ih => exact h n _ (by omega) (ih fun k s hk => h k s (by omega))

/-- A loop that writes registers `0 .. n - 1`, from values that it does not change, and nothing else. -/
theorem ascending_setV (value : State → Nat → Byte) (n : Nat) (s : State)
    (hv : ∀ (x : Reg) b s k, value (setV x b s) k = value s k) :
    let t := ascending n (fun k s => setV (regOfNat k) (value s k) s) s
    t = { s with v := t.v } ∧ (∀ k, value t k = value s k) ∧
      (n ≤ 16 → ∀ x : Reg, readV t x = if x.val < n then value s x.val else readV s x) := by
  induction n with
  | zero => exact ⟨rfl, fun _ => rfl, fun _ x => by simp [ascending]⟩
  | succ n ih =>
    obtain ⟨h1, h2, h3⟩ := ih
    refine ⟨by simp only [ascending]; rw [h1]; rfl, fun k => by simp only [ascending, hv, h2], fun hn x => ?_⟩
    simp only [ascending, readV_setV, h2, h3 (by omega)]
    by_cases hx : x.val = n
    · have : regOfNat n = x := Fin.ext (by simp [regOfNat]; omega)
      simp [this, hx]
    · have : regOfNat n ≠ x := fun h => hx (by rw [← h]; simp [regOfNat]; omega)
      rw [if_neg this]
      split <;> split <;> first | rfl | omega

/-- The loop of `FLAGS_SAVE`. -/
theorem ascending_setFlg (n : Nat) (s : State) :
    let t := ascending n (fun k s => setFlg (cellOfNat k) (readV s (regOfNat k)) s) s
    t = { s with flg := t.flg } ∧
      (n ≤ 8 → ∀ k : Fin 8, readFlg t k = if k.val < n then readV s (regOfNat k.val) else readFlg s k) := by
  induction n with
  | zero => exact ⟨rfl, fun _ k => by simp [ascending]⟩
  | succ n ih =>
    obtain ⟨h1, h2⟩ := ih
    have hv : ∀ x, readV (ascending n (fun k s => setFlg (cellOfNat k) (readV s (regOfNat k)) s) s) x = readV s x :=
      fun x => by rw [h1]; rfl
    refine ⟨by simp only [ascending]; rw [h1]; rfl, fun hn k => ?_⟩
    simp only [ascending, readFlg_setFlg, hv, h2 (by omega)]
    by_cases hx : k.val = n
    · have : cellOfNat n = k := Fin.ext (by simp [cellOfNat]; omega)
      simp [this, hx]
    · have : cellOfNat n ≠ k := fun h => hx (by rw [← h]; simp [cellOfNat]; omega)
      rw [if_neg this]
      split <;> split <;> first | rfl | omega

/-- The loop of `REG_DUMP`: `V[0]` at the lowest address. -/
theorem ascending_dump (n : Nat) (s : State) :
    let t := ascending n (fun k s => writeByte (dataAddress s k) (readV s (regOfNat k)) s) s
    t = { s with mem := t.mem } ∧
      ∀ a, readByte t a = if dataAddress s 0 ≤ a ∧ a < dataAddress s n then
        readV s (regOfNat (a - dataAddress s 0)) else readByte s a := by
  induction n with
  | zero => exact ⟨rfl, fun a => by simp [ascending]⟩
  | succ n ih =>
    obtain ⟨h1, h2⟩ := ih
    generalize ht : ascending n (fun k s => writeByte (dataAddress s k) (readV s (regOfNat k)) s) s = t at h1 h2
    have hv : ∀ x, readV t x = readV s x := fun x => by rw [h1]; rfl
    have hi : ∀ k, dataAddress t k = dataAddress s k := fun k => by rw [h1]; rfl
    refine ⟨by simp only [ascending, ht]; rw [h1]; rfl, fun a => ?_⟩
    have h0 : dataAddress s 0 = s.iReg.toNat + 0 := rfl
    have hn : dataAddress s n = s.iReg.toNat + n := rfl
    have hn' : dataAddress s (n + 1) = s.iReg.toNat + (n + 1) := rfl
    simp only [ascending, ht]
    rw [readByte_writeByte, h2, hv, hi]
    by_cases ha : dataAddress s n = a
    · rw [if_pos ha, if_pos (by omega), show a - dataAddress s 0 = n by omega]
    · rw [if_neg ha]
      exact if_congr (by omega) rfl rfl

/-! ## The call stack (R26) -/

@[simp] theorem top?_push (a : Word) (s : State) : top? (push a s) = some a := by simp [top?, push]

@[simp] theorem dropTop_push (a : Word) (s : State) : dropTop (push a s) = s := by simp [dropTop, push]

theorem top?_none : top? s = none ↔ s.stack = [] := by simp [top?]

theorem top?_some {a : Word} : top? s = some a ↔ ∃ rest, s.stack = rest ++ [a] := by
  simp [top?, List.getLast?_eq_some_iff]

theorem stackFull_iff : stackFull s = true ↔ s.cfg.stackLimit = some s.stack.length := by
  simp only [stackFull, depth]
  cases s.cfg.stackLimit <;> simp [eq_comm]

/-! ## Fetching and the key poll (R112, R117) -/

theorem fetchDecode_ok : fetchDecode s = .ok i ↔ s.pc.toNat ≤ 0xFFE ∧
    decode (wordOfBytes (readByte s s.pc.toNat) (readByte s (s.pc.toNat + 1))) = .instr i := by
  simp only [fetchDecode]
  split <;> rename_i h
  · have := firstBadAddress_some.1 h; simp only [memSize] at this
    simp; omega
  · have := firstBadAddress_none.1 h; simp only [memSize] at this
    split <;> rename_i hd <;> rw [hd] <;> simp
    omega

theorem fetchDecode_error : fetchDecode s = .error e ↔
    (0xFFE < s.pc.toNat ∧ e = .addressError (max s.pc.toNat memSize)) ∨
    (s.pc.toNat ≤ 0xFFE ∧ ∃ r, decode (wordOfBytes (readByte s s.pc.toNat) (readByte s (s.pc.toNat + 1))) =
      .rejected r ∧ e = .decodeError (wordOfBytes (readByte s s.pc.toNat) (readByte s (s.pc.toNat + 1)))) := by
  simp only [fetchDecode]
  split <;> rename_i h
  · have := firstBadAddress_some.1 h; simp only [memSize] at this ⊢
    constructor
    · intro he; cases he; exact .inl ⟨by omega, by rw [this.2]⟩
    · rintro (⟨-, rfl⟩ | ⟨hlt, -⟩)
      · rw [this.2]
      · omega
  · have := firstBadAddress_none.1 h; simp only [memSize] at this
    split <;> rename_i hd <;> simp [hd]
    · omega
    · constructor
      · intro he; exact .inr ⟨by omega, he.symm⟩
      · rintro (⟨hlt, -⟩ | ⟨-, rfl⟩)
        · omega
        · rfl

theorem lowestKeyDown_none : lowestKeyDown s = none ↔ ∀ k < 16, (keySnapshot s).getLsbD k = false := by
  simp [lowestKeyDown, List.find?_eq_none]

theorem lowestKeyDown_some {k : Nat} : lowestKeyDown s = some k ↔
    k < 16 ∧ (keySnapshot s).getLsbD k = true ∧ ∀ j < k, (keySnapshot s).getLsbD j = false := by
  simp only [lowestKeyDown, List.find?_range_eq_some, List.mem_range]
  simp
  tauto

/-- Everything a poll can do: nothing, or the lowest key into the target, two bytes on, running. -/
theorem pollKeys_cases (r : Reg) (s : State) :
    (lowestKeyDown s = none ∧ pollKeys r s = s) ∨
    ∃ k, lowestKeyDown s = some k ∧ pollKeys r s = setWait .running (advance (setV r (BitVec.ofNat 8 k) s)) := by
  cases h : lowestKeyDown s with
  | none => exact .inl ⟨rfl, by simp only [pollKeys, h]⟩
  | some k => exact .inr ⟨k, rfl, by simp only [pollKeys, h]⟩

/-- A poll looks at the key input and leaves the taking of it to the step. -/
@[simp] theorem pollKeys_keyQueue (r : Reg) (s : State) : (pollKeys r s).keyQueue = s.keyQueue := by
  rcases pollKeys_cases r s with ⟨-, h⟩ | ⟨k, -, h⟩ <;> rw [h]
  simp

@[simp] theorem pollKeys_keyDraws (r : Reg) (s : State) : (pollKeys r s).keyDraws = s.keyDraws := by
  rcases pollKeys_cases r s with ⟨-, h⟩ | ⟨k, -, h⟩ <;> rw [h]
  simp

/-! ## The step (R111) -/

theorem finishStep_next {o : StepOutcome} : finishStep o = .next t ↔ ∃ u, o = .next u ∧ t = takeKeys u := by
  cases o <;> simp [finishStep, eq_comm]

theorem finishStep_fault {o : StepOutcome} : finishStep o = .fault e ↔ o = .fault e := by
  cases o <;> simp [finishStep]

theorem step_waiting {r : Reg} (h : s.wait = .waiting r) : step s = .next (takeKeys (pollKeys r s)) := by
  simp only [step, h, waitStep]

theorem step_running (h : s.wait = .running) (hf : fetchDecode s = .ok i) :
    step s = finishStep (exec i s) := by
  simp only [step, h, hf]

theorem step_running_error (h : s.wait = .running) (hf : fetchDecode s = .error e) : step s = .fault e := by
  simp only [step, h, hf, raise]

/-- Everything a completed step can have been: a poll, or the fetched instruction. -/
theorem step_next_cases (h : step s = .next t) :
    (∃ r, s.wait = .waiting r ∧ t = takeKeys (pollKeys r s)) ∨
    (s.wait = .running ∧ ∃ i u, fetchDecode s = .ok i ∧ exec i s = .next u ∧ t = takeKeys u) := by
  cases hw : s.wait with
  | waiting r => rw [step_waiting hw] at h; cases h; exact .inl ⟨r, rfl, rfl⟩
  | running =>
    cases hf : fetchDecode s with
    | error e => rw [step_running_error hw hf] at h; cases h
    | ok i =>
      rw [step_running hw hf, finishStep_next] at h
      obtain ⟨u, hu, rfl⟩ := h
      exact .inr ⟨rfl, i, u, rfl, hu, rfl⟩

/-- Everything a step that raises can have been. -/
theorem step_fault_cases (h : step s = .fault e) :
    s.wait = .running ∧ (fetchDecode s = .error e ∨ ∃ i, fetchDecode s = .ok i ∧ exec i s = .fault e) := by
  cases hw : s.wait with
  | waiting r => rw [step_waiting hw] at h; cases h
  | running =>
    cases hf : fetchDecode s with
    | error e' => rw [step_running_error hw hf] at h; cases h; exact ⟨rfl, .inl rfl⟩
    | ok i =>
      rw [step_running hw hf, finishStep_fault] at h
      exact ⟨rfl, .inr ⟨i, rfl, h⟩⟩

/-! ## Commands (R118, R119) -/

theorem stepCommand_done : stepCommand s = ⟨t, .done⟩ ↔ step s = .next t := by
  simp only [stepCommand]; split <;> simp_all

theorem stepCommand_error : stepCommand s = ⟨t, .error e⟩ ↔ t = s ∧ step s = .fault e := by
  cases h : step s <;> simp [stepCommand, h, eq_comm]

theorem runSteps_zero (s : State) : runSteps 0 s = ⟨s, .done⟩ := rfl

/-- One step of a tick is the `step` command. -/
theorem runSteps_one (s : State) : runSteps 1 s = stepCommand s := by
  simp only [runSteps]
  split
  · next t h => rw [h]
  · rfl

theorem runSteps_succ (n : Nat) (s : State) : runSteps (n + 1) s =
    match stepCommand s with
    | ⟨t, .done⟩ => runSteps n t
    | stopped => stopped := rfl

end Sys2Proof.Machine
end

