-- ==== Sys2Proof/Laws/Frames.lean ====
section
/-! SUPPORT. The terms of Safety.lean: the value of the bit patterns, the frames of the small
operations, and what the invariant needs of them. -/

namespace Sys2Proof.Machine

/-! ## Bit patterns (R83) -/

theorem toNat_patternA (op : BitVec 4) (nnn : BitVec 12) :
    (patternA op nnn).toNat = op.toNat * 4096 + nnn.toNat := by
  have := nnn.isLt
  rw [patternA, BitVec.toNat_append, ← Nat.shiftLeft_add_eq_or_of_lt (by omega), Nat.shiftLeft_eq]

theorem toNat_patternXK (op : BitVec 4) (x : Reg) (kk : Byte) :
    (patternXK op x kk).toNat = op.toNat * 4096 + x.val * 256 + kk.toNat := by
  have := x.isLt; have := kk.isLt
  have hx : (BitVec.ofFin (w := 4) x).toNat = x.val := rfl
  rw [patternXK, BitVec.toNat_append, BitVec.toNat_append, hx,
    ← Nat.shiftLeft_add_eq_or_of_lt (by omega), ← Nat.shiftLeft_add_eq_or_of_lt (by omega),
    Nat.shiftLeft_eq, Nat.shiftLeft_eq]
  omega

theorem toNat_patternXYN (op : BitVec 4) (x y : Reg) (n : BitVec 4) :
    (patternXYN op x y n).toNat = op.toNat * 4096 + x.val * 256 + y.val * 16 + n.toNat := by
  have := x.isLt; have := y.isLt; have := n.isLt
  have hx : (BitVec.ofFin (w := 4) x).toNat = x.val := rfl
  have hy : (BitVec.ofFin (w := 4) y).toNat = y.val := rfl
  rw [patternXYN, BitVec.toNat_append, BitVec.toNat_append, BitVec.toNat_append, hx, hy, ← Nat.shiftLeft_add_eq_or_of_lt (by omega), ← Nat.shiftLeft_add_eq_or_of_lt (by omega),
    ← Nat.shiftLeft_add_eq_or_of_lt (by omega), Nat.shiftLeft_eq, Nat.shiftLeft_eq, Nat.shiftLeft_eq]
  omega

/-! ## Frames -/

theorem SamePiece.refl (s : State) (p : Piece) : SamePiece s s p := by cases p <;> simp [SamePiece]

theorem ChangesOnly.refl (written : Piece → Prop) (s : State) : ChangesOnly written s s :=
  fun p _ => SamePiece.refl s p

theorem SamePiece.trans {s t u : State} {p : Piece} (h : SamePiece s t p) (h' : SamePiece t u p) :
    SamePiece s u p := by
  cases p <;> simp_all [SamePiece]

theorem ChangesOnly.trans {written : Piece → Prop} {s t u : State} (h : ChangesOnly written s t)
    (h' : ChangesOnly written t u) : ChangesOnly written s u :=
  fun p hp => (h p hp).trans (h' p hp)

theorem ChangesOnly.mono {written written' : Piece → Prop} {s t : State} (h : ChangesOnly written s t)
    (hw : ∀ p, written p → written' p) : ChangesOnly written' s t :=
  fun p hp => h p fun h' => hp (hw p h')

theorem takeKeys_changesOnly (s : State) : ChangesOnly (fun p => p = .keyInput) s (takeKeys s) := by
  intro p hp
  cases p <;> simp_all [SamePiece]

theorem takeRandom_changesOnly (s : State) : ChangesOnly (fun p => p = .rndInput) s (takeRandom s) := by
  intro p hp
  cases p <;> simp_all [SamePiece]

theorem setPc_changesOnly (a : Word) (s : State) : ChangesOnly (fun p => p = .pc) s (setPc a s) := by
  intro p hp
  cases p <;> simp_all [SamePiece]

theorem advance_changesOnly (s : State) : ChangesOnly (fun p => p = .pc) s (advance s) := by
  intro p hp
  cases p <;> simp_all [SamePiece]

theorem skipIf_changesOnly (c : Bool) (s : State) : ChangesOnly (fun p => p = .pc) s (skipIf c s) := by
  intro p hp
  cases p <;> simp_all [SamePiece]

theorem setV_changesOnly (x : Reg) (b : Byte) (s : State) :
    ChangesOnly (fun p => p = .v x) s (setV x b s) := by
  intro p hp
  cases p <;> simp_all [SamePiece, eq_comm]

theorem setI_changesOnly (a : Word) (s : State) : ChangesOnly (fun p => p = .i) s (setI a s) := by
  intro p hp
  cases p <;> simp_all [SamePiece]

theorem setFlg_changesOnly (k : Fin 8) (b : Byte) (s : State) :
    ChangesOnly (fun p => p = .flg k) s (setFlg k b s) := by
  intro p hp
  cases p <;> simp_all [SamePiece, eq_comm]

theorem setWait_changesOnly (w : WaitState) (s : State) :
    ChangesOnly (fun p => p = .wait) s (setWait w s) := by
  intro p hp
  cases p <;> simp_all [SamePiece]

theorem writeByte_changesOnly (a : Nat) (b : Byte) (s : State) :
    ChangesOnly (fun p => p = .byte a) s (writeByte a b s) := by
  intro p hp
  cases p <;> simp_all [SamePiece, eq_comm]

end Sys2Proof.Machine
end

