-- ==== Sys2Proof/Laws/PerInstr.lean ====
section
/-! SUPPORT. A fact about every instruction as syntax, one lemma per constructor: a well-formed
instruction's word selects its own row of the opcode table (30_encoding.md R98). -/

namespace Sys2Proof.Laws

/-- The word of a well-formed instruction matches the instruction's row under that row's mask. -/
def EncodingRow.Statement (i : Instr) : Prop := WellFormed i → encode i &&& (rowOf i).mask = (rowOf i).pattern

theorem EncodingRow.clearScreen : EncodingRow.Statement .clearScreen := fun _ => by decide

theorem EncodingRow.ret : EncodingRow.Statement .ret := fun _ => by decide

theorem EncodingRow.jump (nnn : BitVec 12) : EncodingRow.Statement (.jump nnn) := fun _ => by
  have := nnn.isLt
  apply BitVec.eq_of_toNat_eq
  simp only [rowOf, encode]
  rw [toNat_and_F000, toNat_encodeA (by decide)]
  simp; omega

theorem EncodingRow.call (nnn : BitVec 12) : EncodingRow.Statement (.call nnn) := fun _ => by
  have := nnn.isLt
  apply BitVec.eq_of_toNat_eq
  simp only [rowOf, encode]
  rw [toNat_and_F000, toNat_encodeA (by decide)]
  simp; omega

theorem EncodingRow.skipEqImm (x : Reg) (kk : Byte) : EncodingRow.Statement (.skipEqImm x kk) := fun _ => by
  have := x.isLt; have := kk.isLt
  apply BitVec.eq_of_toNat_eq
  simp only [rowOf, encode]
  rw [toNat_and_F000, toNat_encodeXK (by decide)]
  simp; omega

theorem EncodingRow.skipNeImm (x : Reg) (kk : Byte) : EncodingRow.Statement (.skipNeImm x kk) := fun _ => by
  have := x.isLt; have := kk.isLt
  apply BitVec.eq_of_toNat_eq
  simp only [rowOf, encode]
  rw [toNat_and_F000, toNat_encodeXK (by decide)]
  simp; omega

theorem EncodingRow.skipEqReg (x y : Reg) : EncodingRow.Statement (.skipEqReg x y) := fun _ => by
  have := x.isLt; have := y.isLt
  apply BitVec.eq_of_toNat_eq
  simp only [rowOf, encode]
  rw [toNat_and_F00F, toNat_encodeXYN (by decide) (by decide)]
  simp; omega

theorem EncodingRow.setImm (x : Reg) (kk : Byte) : EncodingRow.Statement (.setImm x kk) := fun _ => by
  have := x.isLt; have := kk.isLt
  apply BitVec.eq_of_toNat_eq
  simp only [rowOf, encode]
  rw [toNat_and_F000, toNat_encodeXK (by decide)]
  simp; omega

theorem EncodingRow.addImm (x : Reg) (kk : Byte) : EncodingRow.Statement (.addImm x kk) := fun _ => by
  have := x.isLt; have := kk.isLt
  apply BitVec.eq_of_toNat_eq
  simp only [rowOf, encode]
  rw [toNat_and_F000, toNat_encodeXK (by decide)]
  simp; omega

theorem EncodingRow.mov (x y : Reg) : EncodingRow.Statement (.mov x y) := fun _ => by
  have := x.isLt; have := y.isLt
  apply BitVec.eq_of_toNat_eq
  simp only [rowOf, encode]
  rw [toNat_and_F00F, toNat_encodeXYN (by decide) (by decide)]
  simp; omega

theorem EncodingRow.orReg (x y : Reg) : EncodingRow.Statement (.orReg x y) := fun _ => by
  have := x.isLt; have := y.isLt
  apply BitVec.eq_of_toNat_eq
  simp only [rowOf, encode]
  rw [toNat_and_F00F, toNat_encodeXYN (by decide) (by decide)]
  simp; omega

theorem EncodingRow.andReg (x y : Reg) : EncodingRow.Statement (.andReg x y) := fun _ => by
  have := x.isLt; have := y.isLt
  apply BitVec.eq_of_toNat_eq
  simp only [rowOf, encode]
  rw [toNat_and_F00F, toNat_encodeXYN (by decide) (by decide)]
  simp; omega

theorem EncodingRow.xorReg (x y : Reg) : EncodingRow.Statement (.xorReg x y) := fun _ => by
  have := x.isLt; have := y.isLt
  apply BitVec.eq_of_toNat_eq
  simp only [rowOf, encode]
  rw [toNat_and_F00F, toNat_encodeXYN (by decide) (by decide)]
  simp; omega

theorem EncodingRow.addReg (x y : Reg) : EncodingRow.Statement (.addReg x y) := fun _ => by
  have := x.isLt; have := y.isLt
  apply BitVec.eq_of_toNat_eq
  simp only [rowOf, encode]
  rw [toNat_and_F00F, toNat_encodeXYN (by decide) (by decide)]
  simp; omega

theorem EncodingRow.subReg (x y : Reg) : EncodingRow.Statement (.subReg x y) := fun _ => by
  have := x.isLt; have := y.isLt
  apply BitVec.eq_of_toNat_eq
  simp only [rowOf, encode]
  rw [toNat_and_F00F, toNat_encodeXYN (by decide) (by decide)]
  simp; omega

theorem EncodingRow.shiftRight (x y : Reg) : EncodingRow.Statement (.shiftRight x y) := fun _ => by
  have := x.isLt; have := y.isLt
  apply BitVec.eq_of_toNat_eq
  simp only [rowOf, encode]
  rw [toNat_and_F00F, toNat_encodeXYN (by decide) (by decide)]
  simp; omega

theorem EncodingRow.subRev (x y : Reg) : EncodingRow.Statement (.subRev x y) := fun _ => by
  have := x.isLt; have := y.isLt
  apply BitVec.eq_of_toNat_eq
  simp only [rowOf, encode]
  rw [toNat_and_F00F, toNat_encodeXYN (by decide) (by decide)]
  simp; omega

theorem EncodingRow.shiftLeft (x y : Reg) : EncodingRow.Statement (.shiftLeft x y) := fun _ => by
  have := x.isLt; have := y.isLt
  apply BitVec.eq_of_toNat_eq
  simp only [rowOf, encode]
  rw [toNat_and_F00F, toNat_encodeXYN (by decide) (by decide)]
  simp; omega

theorem EncodingRow.skipNeReg (x y : Reg) : EncodingRow.Statement (.skipNeReg x y) := fun _ => by
  have := x.isLt; have := y.isLt
  apply BitVec.eq_of_toNat_eq
  simp only [rowOf, encode]
  rw [toNat_and_F00F, toNat_encodeXYN (by decide) (by decide)]
  simp; omega

theorem EncodingRow.setI (nnn : BitVec 12) : EncodingRow.Statement (.setI nnn) := fun _ => by
  have := nnn.isLt
  apply BitVec.eq_of_toNat_eq
  simp only [rowOf, encode]
  rw [toNat_and_F000, toNat_encodeA (by decide)]
  simp; omega

theorem EncodingRow.jumpOffset (nnn : BitVec 12) : EncodingRow.Statement (.jumpOffset nnn) := fun _ => by
  have := nnn.isLt
  apply BitVec.eq_of_toNat_eq
  simp only [rowOf, encode]
  rw [toNat_and_F000, toNat_encodeA (by decide)]
  simp; omega

theorem EncodingRow.randAnd (x : Reg) (kk : Byte) : EncodingRow.Statement (.randAnd x kk) := fun _ => by
  have := x.isLt; have := kk.isLt
  apply BitVec.eq_of_toNat_eq
  simp only [rowOf, encode]
  rw [toNat_and_F000, toNat_encodeXK (by decide)]
  simp; omega

theorem EncodingRow.draw (x y : Reg) (n : Fin 16) : EncodingRow.Statement (.draw x y n) := fun _ => by
  have := x.isLt; have := y.isLt; have := n.isLt
  apply BitVec.eq_of_toNat_eq
  simp only [rowOf, encode]
  rw [toNat_and_F000, toNat_encodeXYN (by decide) n.isLt]
  simp; omega

theorem EncodingRow.skipKeyDown (x : Reg) : EncodingRow.Statement (.skipKeyDown x) := fun _ => by
  have := x.isLt
  apply BitVec.eq_of_toNat_eq
  simp only [rowOf, encode]
  rw [toNat_and_F0FF, toNat_encodeX (by decide) (by decide)]
  simp; omega

theorem EncodingRow.skipKeyUp (x : Reg) : EncodingRow.Statement (.skipKeyUp x) := fun _ => by
  have := x.isLt
  apply BitVec.eq_of_toNat_eq
  simp only [rowOf, encode]
  rw [toNat_and_F0FF, toNat_encodeX (by decide) (by decide)]
  simp; omega

theorem EncodingRow.getDelay (x : Reg) : EncodingRow.Statement (.getDelay x) := fun _ => by
  have := x.isLt
  apply BitVec.eq_of_toNat_eq
  simp only [rowOf, encode]
  rw [toNat_and_F0FF, toNat_encodeX (by decide) (by decide)]
  simp; omega

theorem EncodingRow.waitKey (x : Reg) : EncodingRow.Statement (.waitKey x) := fun _ => by
  have := x.isLt
  apply BitVec.eq_of_toNat_eq
  simp only [rowOf, encode]
  rw [toNat_and_F0FF, toNat_encodeX (by decide) (by decide)]
  simp; omega

theorem EncodingRow.setDelay (x : Reg) : EncodingRow.Statement (.setDelay x) := fun _ => by
  have := x.isLt
  apply BitVec.eq_of_toNat_eq
  simp only [rowOf, encode]
  rw [toNat_and_F0FF, toNat_encodeX (by decide) (by decide)]
  simp; omega

theorem EncodingRow.setSound (x : Reg) : EncodingRow.Statement (.setSound x) := fun _ => by
  have := x.isLt
  apply BitVec.eq_of_toNat_eq
  simp only [rowOf, encode]
  rw [toNat_and_F0FF, toNat_encodeX (by decide) (by decide)]
  simp; omega

theorem EncodingRow.addToI (x : Reg) : EncodingRow.Statement (.addToI x) := fun _ => by
  have := x.isLt
  apply BitVec.eq_of_toNat_eq
  simp only [rowOf, encode]
  rw [toNat_and_F0FF, toNat_encodeX (by decide) (by decide)]
  simp; omega

theorem EncodingRow.fontPtr (x : Reg) : EncodingRow.Statement (.fontPtr x) := fun _ => by
  have := x.isLt
  apply BitVec.eq_of_toNat_eq
  simp only [rowOf, encode]
  rw [toNat_and_F0FF, toNat_encodeX (by decide) (by decide)]
  simp; omega

theorem EncodingRow.bcdStore (x : Reg) : EncodingRow.Statement (.bcdStore x) := fun _ => by
  have := x.isLt
  apply BitVec.eq_of_toNat_eq
  simp only [rowOf, encode]
  rw [toNat_and_F0FF, toNat_encodeX (by decide) (by decide)]
  simp; omega

theorem EncodingRow.regDump (x : Reg) : EncodingRow.Statement (.regDump x) := fun _ => by
  have := x.isLt
  apply BitVec.eq_of_toNat_eq
  simp only [rowOf, encode]
  rw [toNat_and_F0FF, toNat_encodeX (by decide) (by decide)]
  simp; omega

theorem EncodingRow.regLoad (x : Reg) : EncodingRow.Statement (.regLoad x) := fun _ => by
  have := x.isLt
  apply BitVec.eq_of_toNat_eq
  simp only [rowOf, encode]
  rw [toNat_and_F0FF, toNat_encodeX (by decide) (by decide)]
  simp; omega

theorem EncodingRow.flagsSave (x : Reg) : EncodingRow.Statement (.flagsSave x) := fun hx => by
  have := x.isLt; have : x.val ≤ 7 := by simpa [WellFormed, Instr.wellFormed, flagCellOperandOk] using hx
  apply BitVec.eq_of_toNat_eq
  simp only [rowOf, encode]
  rw [toNat_and_F8FF, toNat_encodeX (by decide) (by decide)]
  simp; omega

theorem EncodingRow.flagsLoad (x : Reg) : EncodingRow.Statement (.flagsLoad x) := fun hx => by
  have := x.isLt; have : x.val ≤ 7 := by simpa [WellFormed, Instr.wellFormed, flagCellOperandOk] using hx
  apply BitVec.eq_of_toNat_eq
  simp only [rowOf, encode]
  rw [toNat_and_F8FF, toNat_encodeX (by decide) (by decide)]
  simp; omega

end Sys2Proof.Laws
end

