-- ==== Sys2Proof/Tests/Slice0.lean ====
section
/-! SUPPORT. Tests of one step each, with the expected values of 95_test_vectors.md (the row's name
stands beside each), the decoding of words written out from the patterns of 30_encoding.md R83, and
for each statement with hypotheses a state and operands that meet them. -/

open Sys2Proof Sys2Proof.Machine

namespace Sys2Proof.Tests

/-! ## Small states -/

abbrev s0 : State := State.reset

/-- The word where the coming step fetches. -/
def placed (w : Nat) (s : State) : State := s.withFetchWord 16 w

/-- What a function reads from the state after one step, if the step completes. -/
def after {α : Type} (s : State) (f : State → α) : Option α :=
  match step s with
  | .next t => some (f t)
  | _ => none

/-- The error of one step. -/
def errorOf (s : State) : Option Fault :=
  match step s with
  | .fault e => some e
  | _ => none

def withKeys (keys : BitVec 16) (s : State) : State := { s with keyQueue := [keys] }
def withRnd (b : Byte) (s : State) : State := { s with rndQueue := [b] }
def withStack (st : List Word) (s : State) : State := { s with stack := st }
def withShiftVy (s : State) : State := { s with cfg := { s.cfg with shiftUsesVy := true } }
def withIncrementI (s : State) : State := { s with cfg := { s.cfg with memOpsIncrementI := true } }
def withAddIFlag (s : State) : State := { s with cfg := { s.cfg with addISetsVf := true } }
def withPixel (cx : Fin 64) (cy : Fin 32) (s : State) : State := { s with fb := flipPixel cx cy s.fb }

/-! ## Well-formedness: the one check, with ill-formed terms that it refuses (R92) -/

theorem test_flagsSave_past_seven_refused : ¬ WellFormed (.flagsSave 8) ∧ ¬ WellFormed (.flagsSave 15) := by decide
theorem test_flagsLoad_past_seven_refused : ¬ WellFormed (.flagsLoad 8) ∧ ¬ WellFormed (.flagsLoad 15) := by decide
theorem test_flag_cells_accepted : WellFormed (.flagsSave 7) ∧ WellFormed (.flagsLoad 0) := by decide

/-! ## Decoding of words written out from the patterns (R83), every constructor -/

theorem test_decode_control_flow :
    decode 0x00EE = .instr .ret ∧ decode 0x1ABC = .instr (.jump 0xABC) ∧
    decode 0x2DEF = .instr (.call 0xDEF) ∧ decode 0x3A2B = .instr (.skipEqImm 0xA 0x2B) ∧
    decode 0x4C3D = .instr (.skipNeImm 0xC 0x3D) ∧ decode 0x5120 = .instr (.skipEqReg 1 2) ∧
    decode 0x9E70 = .instr (.skipNeReg 0xE 7) ∧ decode 0xB2FF = .instr (.jumpOffset 0x2FF) := by decide

theorem test_decode_alu :
    decode 0x6BFF = .instr (.setImm 0xB 0xFF) ∧ decode 0x7320 = .instr (.addImm 3 0x20) ∧
    decode 0x8120 = .instr (.mov 1 2) ∧ decode 0x8341 = .instr (.orReg 3 4) ∧
    decode 0x8562 = .instr (.andReg 5 6) ∧ decode 0x8783 = .instr (.xorReg 7 8) ∧
    decode 0x8AB4 = .instr (.addReg 0xA 0xB) ∧ decode 0x8CD5 = .instr (.subReg 0xC 0xD) ∧
    decode 0x8EF6 = .instr (.shiftRight 0xE 0xF) ∧ decode 0x8F17 = .instr (.subRev 0xF 1) ∧
    decode 0x823E = .instr (.shiftLeft 2 3) ∧ decode 0xC10F = .instr (.randAnd 1 0x0F) := by decide

theorem test_decode_index_memory :
    decode 0xA2F0 = .instr (.setI 0x2F0) ∧ decode 0xF11E = .instr (.addToI 1) ∧
    decode 0xF229 = .instr (.fontPtr 2) ∧ decode 0xF333 = .instr (.bcdStore 3) ∧
    decode 0xFF55 = .instr (.regDump 0xF) ∧ decode 0xF465 = .instr (.regLoad 4) ∧
    decode 0xF775 = .instr (.flagsSave 7) ∧ decode 0xF585 = .instr (.flagsLoad 5) := by decide

theorem test_decode_display_input :
    decode 0x00E0 = .instr .clearScreen ∧ decode 0xD12F = .instr (.draw 1 2 15) ∧
    decode 0xE19E = .instr (.skipKeyDown 1) ∧ decode 0xE2A1 = .instr (.skipKeyUp 2) ∧
    decode 0xF307 = .instr (.getDelay 3) ∧ decode 0xFA0A = .instr (.waitKey 0xA) ∧
    decode 0xFB15 = .instr (.setDelay 0xB) ∧ decode 0xFC18 = .instr (.setSound 0xC) := by decide

/-- One word of each class of R92 at least (DEC1 to DEC36). -/
theorem test_decode_rejects :
    decode 0x0000 = .rejected .familyZero ∧ decode 0x00E1 = .rejected .familyZero ∧
    decode 0x0FFF = .rejected .familyZero ∧ decode 0x512F = .rejected .familyFive ∧
    decode 0x8128 = .rejected .familyEight ∧ decode 0x812F = .rejected .familyEight ∧
    decode 0x9128 = .rejected .familyNine ∧ decode 0xE19F = .rejected .familyE ∧
    decode 0xF100 = .rejected .familyF ∧ decode 0xFFFF = .rejected .familyF ∧
    decode 0xF875 = .rejected .flagCellsPastSeven ∧ decode 0xFF85 = .rejected .flagCellsPastSeven := by decide

/-- The byte at the lower address is the high one (T12), and one byte is no instruction. -/
theorem test_decode_bytes :
    decodeBytes [0x12, 0x34, 0x56] = (.instr (.jump 0x234), [0x56]) ∧
    decodeBytes [0x34, 0x12] = (.instr (.skipEqImm 4 0x12), []) ∧
    decodeBytes [0x12] = (.rejected .fewerThanTwoBytes, [0x12]) := by decide

theorem test_encode_bytes : encodeBytes (.setImm 0xB 0xFF) = [0x6B, 0xFF] := by decide

/-! ## Control flow -/

/-- CF5, CF21. -/
theorem test_ret : after (placed 0x00EE (withStack [0x0200] (setPc 0x300 s0))) (fun t => (t.stack, t.pc)) =
    some ([], 0x0202) := by decide
theorem test_ret_top : after (placed 0x00EE (withStack [0x0200, 0x0FFE] s0)) (fun t => (t.stack, t.pc)) =
    some ([0x0200], 0x1000) := by decide
/-- CF1. -/
theorem test_jump : after (placed 0x1ABC s0) (fun t => t.pc) = some 0x0ABC := by decide
/-- CF4, CF23. -/
theorem test_call : after (placed 0x2300 s0) (fun t => (t.stack, t.pc)) = some ([0x0200], 0x0300) := by decide
theorem test_call_last : after (placed 0x2300 (withStack (List.replicate 15 0x0200) (setPc 0x400 s0)))
    (fun t => (t.stack.length, t.stack.getLast?, t.pc)) = some (16, some 0x0400, 0x0300) := by decide
/-- CF6, CF7. -/
theorem test_skipEqImm : after (placed 0x3A2A (setV 0xA 0x2A s0)) (fun t => t.pc) = some 0x0204 := by decide
theorem test_skipEqImm_not : after (placed 0x3A2B (setV 0xA 0x2A s0)) (fun t => t.pc) = some 0x0202 := by decide
/-- CF8, CF9. -/
theorem test_skipNeImm : after (placed 0x4A2B (setV 0xA 0x2A s0)) (fun t => t.pc) = some 0x0204 := by decide
theorem test_skipNeImm_not : after (placed 0x4A2A (setV 0xA 0x2A s0)) (fun t => t.pc) = some 0x0202 := by decide
/-- CF10, CF11. -/
theorem test_skipEqReg : after (placed 0x5120 (setV 1 7 (setV 2 7 s0))) (fun t => t.pc) = some 0x0204 := by decide
theorem test_skipEqReg_not : after (placed 0x5120 (setV 1 7 (setV 2 8 s0))) (fun t => t.pc) = some 0x0202 := by decide
/-- CF12, CF15. -/
theorem test_skipNeReg : after (placed 0x9120 (setV 1 7 (setV 2 8 s0))) (fun t => t.pc) = some 0x0204 := by decide
theorem test_skipNeReg_same : after (placed 0x9330 (setV 3 0x99 s0)) (fun t => t.pc) = some 0x0202 := by decide
/-- CF18, CF19. -/
theorem test_jumpOffset : after (placed 0xBFFF (setV 0 0xFF s0)) (fun t => t.pc) = some 0x10FE := by decide
theorem test_jumpOffset_odd : after (placed 0xB300 (setV 0 1 (setV 3 9 s0))) (fun t => t.pc) = some 0x0301 := by decide

/-! ## Registers and arithmetic -/

/-- ALU1. -/
theorem test_setImm : after (placed 0x6BFF s0) (fun t => (readV t 0xB, t.pc)) = some (0xFF, 0x0202) := by decide
/-- ALU3, ALU4. -/
theorem test_addImm : after (placed 0x71FF (setV 1 1 (setVF 9 s0))) (fun t => (readV t 1, readV t vf)) =
    some (0, 9) := by decide
theorem test_addImm_vf : after (placed 0x7F01 (setVF 0xFF s0)) (fun t => readV t vf) = some 0 := by decide
/-- ALU32. -/
theorem test_mov : after (placed 0x8120 (setV 1 0x11 (setV 2 0x22 s0))) (fun t => (readV t 1, readV t 2)) =
    some (0x22, 0x22) := by decide
/-- ALU33. -/
theorem test_orReg : after (placed 0x8121 (setV 1 0x0F (setV 2 0xF0 (setVF 1 s0))))
    (fun t => (readV t 1, readV t vf)) = some (0xFF, 1) := by decide
/-- ALU34. -/
theorem test_andReg : after (placed 0x8122 (setV 1 0x3C (setV 2 0x0F (setVF 1 s0))))
    (fun t => (readV t 1, readV t vf)) = some (0x0C, 1) := by decide
/-- ALU35, ALU36. -/
theorem test_xorReg : after (placed 0x8123 (setV 1 0xFF (setV 2 0x0F (setVF 1 s0))))
    (fun t => (readV t 1, readV t vf)) = some (0xF0, 1) := by decide
theorem test_xorReg_same : after (placed 0x8113 (setV 1 0xA5 s0)) (fun t => readV t 1) = some 0 := by decide
/-- ALU5, ALU9. -/
theorem test_addReg : after (placed 0x8124 (setV 1 0xFF (setV 2 1 s0))) (fun t => (readV t 1, readV t vf)) =
    some (0, 1) := by decide
theorem test_addReg_vf : after (placed 0x8F14 (setVF 0xF0 (setV 1 0x20 s0))) (fun t => readV t vf) = some 1 := by decide
/-- ALU11, ALU16. -/
theorem test_subReg : after (placed 0x8125 (setV 1 0x10 (setV 2 0x20 (setVF 1 s0))))
    (fun t => (readV t 1, readV t vf)) = some (0xF0, 0) := by decide
theorem test_subReg_vf : after (placed 0x8F15 (setVF 5 (setV 1 9 s0))) (fun t => readV t vf) = some 0 := by decide
/-- ALU17, ALU30. -/
theorem test_shiftRight : after (placed 0x8126 (setV 1 5 (setV 2 0xAA s0))) (fun t => (readV t 1, readV t vf)) =
    some (2, 1) := by decide
theorem test_shiftRight_from_vf : after (placed 0x81F6 (withShiftVy (setV 1 0x55 (setVF 3 s0))))
    (fun t => (readV t 1, readV t vf)) = some (0, 1) := by decide
/-- ALU21, ALU23. -/
theorem test_subRev : after (placed 0x8127 (setV 1 0x10 (setV 2 0x20 s0))) (fun t => (readV t 1, readV t vf)) =
    some (0x10, 1) := by decide
theorem test_subRev_equal : after (placed 0x8127 (setV 1 0x44 (setV 2 0x44 s0)))
    (fun t => (readV t 1, readV t vf)) = some (0, 1) := by decide
/-- ALU26, ALU28. -/
theorem test_shiftLeft_vf : after (placed 0x8F2E (setVF 0x80 s0)) (fun t => readV t vf) = some 2 := by decide
theorem test_shiftLeft_from_vy : after (placed 0x812E (withShiftVy (setV 1 1 (setV 2 0xC0 s0))))
    (fun t => (readV t 1, readV t 2, readV t vf)) = some (0x80, 0xC0, 1) := by decide
/-- ALU37. -/
theorem test_randAnd : after (placed 0xC10F (withRnd 0xA7 s0)) (fun t => (readV t 1, t.rndQueue)) =
    some (7, []) := by decide

/-! ## Address register, memory and flag cells -/

/-- MEM2. -/
theorem test_setI : after (placed 0xAFFF s0) (fun t => (t.iReg, t.pc)) = some (0x0FFF, 0x0202) := by decide
/-- MEM6, MEM7. -/
theorem test_addToI : after (placed 0xF11E (setI 0xFFFF (setV 1 2 s0))) (fun t => (t.iReg, readV t vf)) =
    some (1, 0) := by decide
theorem test_addToI_vf : after (placed 0xFF1E (withAddIFlag (setI 0x0FFF (setVF 2 s0))))
    (fun t => (t.iReg, readV t vf)) = some (0x1001, 1) := by decide
/-- MEM9. -/
theorem test_fontPtr : after (placed 0xF129 (setV 1 0xFF s0)) (fun t => t.iReg) = some 0x04FB := by decide
/-- MEM12, MEM14. -/
theorem test_bcdStore : after (placed 0xF133 (setI 0xFFD (setV 1 0x7B s0)))
    (fun t => (readByte t 0xFFD, readByte t 0xFFE, readByte t 0xFFF)) = some (1, 2, 3) := by decide
theorem test_bcdStore_bad : errorOf (placed 0xF133 (setI 0x1234 s0)) = some (.addressError 0x1234) := by decide
/-- MEM16, MEM17. -/
theorem test_regDump : after (placed 0xF255 (withIncrementI (setI 0x400 (setV 0 0x11 (setV 1 0x22 (setV 2 0x33 s0))))))
    (fun t => (t.iReg, readByte t 0x400, readByte t 0x402, readByte t 0x403)) =
    some (0x0403, 0x11, 0x33, 0) := by decide
theorem test_regDump_bad : errorOf (placed 0xF155 (setI 0xFFF s0)) = some (.addressError 0x1000) := by decide
/-- MEM23, MEM25. -/
theorem test_regLoad : after (placed 0xF365 (setV 4 7 s0))
    (fun t => (readV t 0, readV t 1, readV t 3, readV t 4, t.iReg)) = some (0xF0, 0x90, 0x90, 7, 0) := by decide
theorem test_regLoad_all : after (placed 0xFF65 (writeByte 0xFFF 0x5A (setI 0xFF0 s0)))
    (fun t => (readV t 0, readV t vf)) = some (0, 0x5A) := by decide
/-- MEM26, MEM29. -/
theorem test_flagsSave : after (placed 0xF175 (setV 0 1 (setV 1 2 (setV 2 3 s0))))
    (fun t => (readFlg t 0, readFlg t 1, readFlg t 2)) = some (1, 2, 0) := by decide
theorem test_flagsSave_bad : errorOf (placed 0xF875 s0) = some (.decodeError 0xF875) := by decide
/-- MEM28. -/
theorem test_flagsLoad : after (placed 0xF185 (setFlg 0 9 (setFlg 1 8 (setFlg 2 7 (setV 2 0x55 s0)))))
    (fun t => (readV t 0, readV t 1, readV t 2)) = some (9, 8, 0x55) := by decide

/-! ## Display -/

/-- DSP1. -/
theorem test_clearScreen : after (placed 0x00E0 (withPixel 63 31 (setVF 1 s0)))
    (fun t => (pixel t.fb 63 31, readV t vf, t.pc)) = some (false, 1, 0x0202) := by decide
/-- DSP7, DSP3. -/
theorem test_draw_collides : after (placed 0xD121 (writeByte 0x300 0xC0 (setI 0x300 (withPixel 0 0 s0))))
    (fun t => (pixel t.fb 0 0, pixel t.fb 1 0, readV t vf)) = some (false, true, 1) := by decide
theorem test_draw_wraps : after (placed 0xD125 (setV 1 0x3E (setV 2 0x1E s0)))
    (fun t => (pixel t.fb 1 0, pixel t.fb 62 30, pixel t.fb 2 30, pixel t.fb 0 31, readV t vf)) =
    some (true, true, false, false, 0) := by decide

/-! ## Keys and timers -/

/-- KEY1, KEY5. -/
theorem test_skipKeyDown : after (placed 0xE19E (withKeys 0x0020 (setV 1 5 s0))) (fun t => t.pc) = some 0x0204 := by decide
theorem test_skipKeyDown_21 : after (placed 0xE19E (withKeys 0x0020 (setV 1 0x15 s0))) (fun t => t.pc) =
    some 0x0202 := by decide
/-- KEY4, KEY6. -/
theorem test_skipKeyUp_not : after (placed 0xE1A1 (withKeys 0x0020 (setV 1 5 s0))) (fun t => t.pc) = some 0x0202 := by decide
theorem test_skipKeyUp_21 : after (placed 0xE1A1 (withKeys 0x0020 (setV 1 0x15 s0))) (fun t => t.pc) =
    some 0x0204 := by decide
/-- KEY7, KEY10. -/
theorem test_waitKey : after (placed 0xF30A (withKeys 0x0080 s0)) (fun t => (t.wait, t.pc, readV t 3)) =
    some (.waiting 3, 0x0200, 0) := by decide
theorem test_waitKey_resolves : after (setWait (.waiting 3) (withKeys 0x1204 s0))
    (fun t => (t.wait, t.pc, readV t 3)) = some (.running, 0x0202, 2) := by decide
/-- TMR1. -/
theorem test_getDelay : after (placed 0xF107 (setDt 0x3C s0)) (fun t => (readV t 1, t.dt)) = some (0x3C, 0x3C) := by decide
/-- TMR2. -/
theorem test_setDelay : after (placed 0xF115 (setV 1 0x3C s0)) (fun t => (t.dt, t.st)) = some (0x3C, 0) := by decide
/-- TMR3. -/
theorem test_setSound : after (placed 0xF118 (setV 1 5 s0)) (fun t => (t.dt, t.st)) = some (0, 5) := by decide

/-! ## Commands -/

/-- RST6, and the ends of the font (R52, R56). -/
theorem test_nothing_loaded : errorOf s0 = some (.decodeError 0x0000) ∧ readByte s0 79 = 0x80 ∧ readByte s0 80 = 0 := by
  decide
/-- TCK1. -/
theorem test_tick_counts : ((tick (placed 0x1200 (setDt 5 (setSt 1 s0)))).state.dt,
    (tick (placed 0x1200 (setDt 5 (setSt 1 s0)))).state.st) = (4, 0) := by decide
/-- RST2. -/
theorem test_load : (readByte (load [0xAA, 0xBB, 0xCC] (writeByte 0x203 4 s0)).state 0x202,
    readByte (load [0xAA, 0xBB, 0xCC] (writeByte 0x203 4 s0)).state 0x203) = (0xCC, 4) := by decide
/-- RST1. -/
theorem test_reset_keeps_fb : (pixel (resetCommand (withPixel 1 1 (writeByte 0x10 0xAA s0))).fb 1 1,
    readByte (resetCommand (withPixel 1 1 (writeByte 0x10 0xAA s0))) 0x10) = (true, 0x10) := by decide

/-! ## States and operands that meet the statements' hypotheses -/

/-- Whether an instruction completes with a next state of which a test holds. -/
def nextHas (i : Instr) (s : State) (p : State → Bool) : Prop := ∃ t, exec i s = .next t ∧ p t = true

theorem witness_DecodeOfEncodeGivesInstrBack :
    WellFormed (.flagsSave 7) ∧ WellFormed (.flagsLoad 7) ∧ WellFormed (.draw 15 15 15) := by decide

theorem witness_EncodeOfDecodeGivesWordBack : decode 0xF785 = .instr (.flagsLoad 7) := by decide

theorem witness_DecodeFollowsOpcodeTable :
    decode 0x1000 = .instr (.jump 0) ∧ decode 0x0FFF = .rejected .familyZero := by decide

/-- The highest address at which a fetch succeeds; the instruction completes. -/
theorem witness_StepRunsTheDecodedInstr_next :
    let s := placed 0x6001 (setPc 0xFFE s0)
    s.wait = .running ∧ s.pc.toNat ≤ 0xFFE ∧
    (0x6001 : Word).toNat = (readByte s s.pc.toNat).toNat * 256 + (readByte s (s.pc.toNat + 1)).toNat ∧
    decode 0x6001 = .instr (.setImm 0 1) ∧ ∃ t, exec (.setImm 0 1) s = .next t :=
  ⟨by decide, by decide, by decide, by decide, _, rfl⟩

theorem witness_StepRunsTheDecodedInstr_fault :
    let s := placed 0x00EE s0
    s.wait = .running ∧ s.pc.toNat ≤ 0xFFE ∧
    (0x00EE : Word).toNat = (readByte s s.pc.toNat).toNat * 256 + (readByte s (s.pc.toNat + 1)).toNat ∧
    decode 0x00EE = .instr .ret ∧ exec .ret s = .fault (.stackUnderflow 0x200) :=
  ⟨by decide, by decide, by decide, by decide, rfl⟩

theorem witness_PlacedWordIsFetchedNext : WellFormed (.setImm 0 1) ∧ (setPc 0xFFE s0).pc.toNat ≤ 0xFFE := by decide

theorem witness_UnmatchedWordRaisesDecodeError :
    s0.wait = .running ∧ s0.pc.toNat ≤ 0xFFE ∧
    (0x0000 : Word).toNat = (readByte s0 s0.pc.toNat).toNat * 256 + (readByte s0 (s0.pc.toNat + 1)).toNat ∧
    ∀ row ∈ opcodeTable, (0x0000 : Word) &&& row.mask ≠ row.pattern := by decide

theorem witness_WaitingStepPollsKeys_none :
    let s := setWait (.waiting 3) (withKeys 0 s0)
    s.wait = .waiting 3 ∧ ∀ k < 16, (keySnapshot s).getLsbD k = false := by decide

theorem witness_WaitingStepPollsKeys_highest :
    let s := setWait (.waiting 15) (withKeys 0x8000 s0)
    s.wait = .waiting 15 ∧ (keySnapshot s).getLsbD 15 = true ∧
    ∀ j < 15, (keySnapshot s).getLsbD j = false := by decide

/-- One state for each line of the list of errors, at the bounds (CF20, CF22, CF25, CF27, DSP15,
MEM13, MEM17, MEM24). -/
theorem witness_StepErrorsAreExactlyTheListed :
    errorOf (setPc 0xFFF s0) = some (.addressError 0x1000) ∧
    errorOf (setPc 0x10FE s0) = some (.addressError 0x10FE) ∧
    errorOf (placed 0xFFFF s0) = some (.decodeError 0xFFFF) ∧
    errorOf (placed 0x00EE s0) = some (.stackUnderflow 0x0200) ∧
    errorOf (placed 0x2300 (withStack (List.replicate 16 0x0200) (setPc 0x400 s0))) =
      some (.stackOverflow 0x0400) ∧
    errorOf (placed 0xD12F (setI 0xFF2 s0)) = some (.addressError 0x1000) ∧
    errorOf (placed 0xF133 (setI 0xFFE s0)) = some (.addressError 0x1000) ∧
    errorOf (placed 0xF155 (setI 0xFFF s0)) = some (.addressError 0x1000) ∧
    errorOf (placed 0xFF65 (setI 0xFF1 s0)) = some (.addressError 0x1000) := by decide

theorem witness_ErrorsIgnoreTheInputs : step s0 = .fault (.decodeError 0x0000) := rfl

theorem witness_InputsReachOnlyTheirReaders_keys :
    nextHas (.randAnd 1 0xFF) s0 (fun _ => true) ∧
    ∀ x, (Instr.randAnd 1 0xFF) ≠ .skipKeyDown x ∧ (Instr.randAnd 1 0xFF) ≠ .skipKeyUp x :=
  ⟨⟨_, rfl, rfl⟩, by decide⟩

theorem witness_InputsReachOnlyTheirReaders_random :
    nextHas (.skipKeyDown 1) s0 (fun _ => true) ∧ ∀ x kk, (Instr.skipKeyDown 1) ≠ .randAnd x kk :=
  ⟨⟨_, rfl, rfl⟩, fun _ _ => by simp⟩

theorem witness_RandomBytesAreTakenInOrder : (withRnd 0xA7 s0).rndQueue = 0xA7 :: [] ∧ s0.rndQueue = [] := by decide

/-- For each piece of state an instruction that writes it. -/
theorem witness_OnlyTheListedInstrsWriteEachPiece_stack_flags_timers :
    nextHas (.call 0x300) s0 (fun t => decide (t.stack ≠ s0.stack)) ∧
    nextHas (.flagsSave 7) (setV 7 1 s0) (fun t => decide (readFlg t 7 ≠ readFlg s0 7)) ∧
    nextHas (.setDelay 1) (setV 1 1 s0) (fun t => decide (t.dt ≠ s0.dt)) ∧
    nextHas (.setSound 1) (setV 1 1 s0) (fun t => decide (t.st ≠ s0.st)) :=
  ⟨⟨_, rfl, by decide⟩, ⟨_, rfl, by decide⟩, ⟨_, rfl, by decide⟩, ⟨_, rfl, by decide⟩⟩

theorem witness_OnlyTheListedInstrsWriteEachPiece_wait_pixels_memory :
    nextHas (.waitKey 1) s0 (fun t => decide (t.wait ≠ s0.wait)) ∧
    nextHas (.draw 0 0 1) s0 (fun t => pixel t.fb 0 0 != pixel s0.fb 0 0) ∧
    nextHas (.regDump 0) (setI 0xFFF (setV 0 1 s0)) (fun t => decide (readByte t 0xFFF ≠ readByte s0 0xFFF)) :=
  ⟨⟨_, rfl, by decide⟩, ⟨_, rfl, by decide⟩, ⟨_, rfl, by decide⟩⟩

theorem witness_OnlyTheListedInstrsWriteEachPiece_address_random :
    nextHas (.regLoad 2) (withIncrementI s0) (fun t => decide (t.iReg ≠ s0.iReg)) ∧
    nextHas (.randAnd 1 0) s0 (fun t => decide (t.rndDraws ≠ s0.rndDraws)) :=
  ⟨⟨_, rfl, by decide⟩, ⟨_, rfl, by decide⟩⟩

theorem witness_OnlyTheListedInstrsWriteVF :
    nextHas (.addReg 1 2) (setV 1 0xFF (setV 2 1 s0)) (fun t => decide (readV t vf ≠ readV s0 vf)) :=
  ⟨_, rfl, by decide⟩

theorem witness_PlainInstrsAdvanceByTwo :
    nextHas .clearScreen s0 (fun _ => true) ∧
    (∀ nnn, Instr.clearScreen ≠ .jump nnn ∧ Instr.clearScreen ≠ .jumpOffset nnn ∧ Instr.clearScreen ≠ .call nnn) ∧
    Instr.clearScreen ≠ .ret ∧
    (∀ x, Instr.clearScreen ≠ .waitKey x ∧ Instr.clearScreen ≠ .skipKeyDown x ∧ Instr.clearScreen ≠ .skipKeyUp x) ∧
    (∀ x kk, Instr.clearScreen ≠ .skipEqImm x kk ∧ Instr.clearScreen ≠ .skipNeImm x kk) ∧
    (∀ x y, Instr.clearScreen ≠ .skipEqReg x y ∧ Instr.clearScreen ≠ .skipNeReg x y) :=
  ⟨⟨_, rfl, rfl⟩, fun _ => by simp, by simp, fun _ => by simp, fun _ _ => by simp, fun _ _ => by simp⟩

/-- A step that was seen to complete has a next state. -/
theorem exists_next_of_after {α : Type} {s : State} {f : State → α} {a : α} (h : after s f = some a) :
    ∃ t, step s = .next t := by
  simp only [after] at h
  split at h
  · exact ⟨_, ‹_›⟩
  · cases h

/-- A state of the invariant at the highest fetch address, with a listed byte and a stack entry. -/
theorem witness_StepKeepsTheInvariant :
    Inv (placed 0x6001 (withStack [0x0FFE] (setPc 0xFFE s0))) ∧
    ∃ t, step (placed 0x6001 (withStack [0x0FFE] (setPc 0xFFE s0))) = .next t :=
  ⟨{ memory := by decide
     depthBound := fun limit h => by
       have h' : some 16 = some limit := h
       cases h'; decide
     stackEntries := fun a h => by
       have h' : a ∈ [(0x0FFE : Word)] := h
       rw [List.mem_singleton.1 h']; decide
     pcRange := by decide
     waitingPc := by decide },
   exists_next_of_after (f := fun t => t.pc) (a := 0x1000) (by decide)⟩

theorem witness_ReachableStatesMeetTheInvariant : Reachable (command .tick s0).state :=
  ⟨defaultConfig, [.tick], rfl⟩

theorem witness_LoadCopiesBytesToProgramArea :
    (List.replicate 3584 (0x5A : Byte)).length ≤ 3584 ∧ 3584 < (List.replicate 3585 (0x5A : Byte)).length := by
  simp only [List.length_replicate]; omega

theorem witness_TickCountsTimersThenSteps :
    s0.wait = .running ∧ (setWait (.waiting 15) s0).wait = .waiting 15 := by decide

/-- One step that completes and one that raises, for the single step and for the tick's steps. -/
theorem witness_TickStepsStopAtFirstError :
    (∃ t, step (placed 0x1200 s0) = .next t) ∧ step s0 = .fault (.decodeError 0x0000) ∧
    (∃ t, runSteps 1 (placed 0x1200 s0) = ⟨t, .done⟩) ∧
    ∃ t, runSteps 2 s0 = ⟨t, .error (.decodeError 0x0000)⟩ := ⟨⟨_, rfl⟩, rfl, ⟨_, rfl⟩, ⟨s0, rfl⟩⟩

/-- A queue longer than the tick, whose later snapshot holds a key that this tick does not see. -/
theorem witness_BlockedTickWithoutKeysChangesNothing :
    let s := setWait (.waiting 2) { s0 with keyQueue := List.replicate 10 0 ++ [0x8000] }
    s.wait = .waiting 2 ∧ ∀ j < s.cfg.stepsPerTick, ∀ k < 16,
      (keySnapshot { s with keyQueue := s.keyQueue.drop j, keyDraws := s.keyDraws + j }).getLsbD k = false := by
  decide

theorem witness_TerminalStateStays : Terminal (placed 0x1200 s0) :=
  ⟨by decide, 0x200, by decide, by decide⟩

theorem witness_CallPushesItsOwnAddress :
    (withStack (List.replicate 15 0x0200) s0).cfg.stackLimit ≠ some (withStack (List.replicate 15 0x0200) s0).stack.length ∧
    (withStack (List.replicate 16 0x0200) s0).cfg.stackLimit = some (withStack (List.replicate 16 0x0200) s0).stack.length := by
  decide

theorem witness_ReturnLandsBehindItsCall :
    (withStack [0x0FFE] s0).stack = [] ++ [0x0FFE] ∧ s0.stack = [] := by decide

theorem witness_CallThenReturnComesBack :
    ∃ t, exec (.call 0xFFF) s0 = .next t ∧ (setPc 0x345 t).stack = t.stack := ⟨_, rfl, rfl⟩

theorem witness_SkipOnKey :
    let down := setV 1 15 (withKeys 0x8000 s0)
    let up := setV 1 0 (withKeys 0x8000 s0)
    let none := setV 1 16 (withKeys 0x8000 s0)
    ((readV down 1).toNat ≤ 15 ∧ (keySnapshot down).getLsbD (readV down 1).toNat = true) ∧
    (keySnapshot up).getLsbD (readV up 1).toNat = false ∧ 15 < (readV none 1).toNat := by decide

theorem witness_AddRegSetsCarry : (14 : Reg) ≠ vf := by decide

theorem witness_SubtractionsSetNoBorrow : (0 : Reg) ≠ vf := by decide

/-- The four clauses of both shifts: a source other than `VF` or `VF` itself, the destination too. -/
theorem witness_Shifts :
    ((1 : Reg) = (if s0.cfg.shiftUsesVy = true then 2 else 1) ∧ (1 : Reg) ≠ vf) ∧
    ((2 : Reg) = (if (withShiftVy s0).cfg.shiftUsesVy = true then 2 else vf) ∧ (2 : Reg) ≠ vf) ∧
    (vf = (if (withShiftVy s0).cfg.shiftUsesVy = true then vf else 1) ∧ (1 : Reg) ≠ vf) ∧
    (vf = (if s0.cfg.shiftUsesVy = true then 2 else vf)) := by decide

theorem witness_AddToIWrapsAtSixteenBits :
    s0.cfg.addISetsVf = false ∧ (withAddIFlag s0).cfg.addISetsVf = true := by decide

theorem witness_BcdStoreWritesThreeDigits :
    (setI 0xFFD s0).iReg.toNat + 2 ≤ 0xFFF ∧ 0xFFF < (setI 0xFFE s0).iReg.toNat + 2 := by decide

theorem witness_RegDumpAndRegLoad :
    (setI 0xFF0 s0).iReg.toNat + (15 : Reg).val ≤ 0xFFF ∧ 0xFFF < (setI 0xFF1 s0).iReg.toNat + (15 : Reg).val ∧
    s0.cfg.memOpsIncrementI = false ∧ (withIncrementI s0).cfg.memOpsIncrementI = true ∧ (15 : Reg) ≤ 15 := by decide

theorem witness_FlagsSaveAndFlagsLoad :
    (7 : Reg).val ≤ 7 ∧ 7 < (8 : Reg).val ∧ (7 : Reg).val = (7 : Fin 8).val ∧ (7 : Reg) ≤ 7 := by decide

theorem witness_BlitAndDrawingTwice : (List.replicate 15 (0xFF : Byte)).length ≤ 15 := by decide

/-- The last sprite that ends at the top of memory, and the first that passes it. -/
theorem witness_DrawXorsSpriteAndReportsCollision_range :
    let s := setI 0xFF1 s0
    (s.iReg.toNat + (15 : Fin 16).val - 1 ≤ 0xFFF) ∧ (dataBytes s 15).length = (15 : Fin 16).val ∧
    (∀ r < 15, (dataBytes s 15).getD r 0 = readByte s (dataAddress s r)) ∧
    1 ≤ (15 : Fin 16).val ∧ 0xFFF < (setI 0xFF2 s0).iReg.toNat + (15 : Fin 16).val - 1 := by decide

/-- No row at all is drawn also with `I` out of range. -/
theorem witness_DrawXorsSpriteAndReportsCollision_no_row :
    (0 : Fin 16).val = 0 ∧ (dataBytes (setI 0x1234 s0) 0).length = 0 := by decide

theorem witness_DrawXorsSpriteAndReportsCollision_collision :
    SpriteCovers 63 31 [0x80] 63 31 ∧ pixel (withPixel 63 31 s0).fb 63 31 = true :=
  ⟨⟨0, 0, by decide, by decide, by decide, by decide, by decide⟩, by decide⟩

theorem witness_DrawXorsSpriteAndReportsCollision_none (x0 y0 : Nat) (rows : List Byte) :
    ∀ cx cy, SpriteCovers x0 y0 rows cx cy → pixel s0.fb cx cy = false :=
  fun cx cy _ => pixel_clearedFb cx cy

end Sys2Proof.Tests
end

section
/-! Control transfer (41_control_flow.md): the encoding, the effect and the frame of the jumps and of
the skips on registers. -/

namespace Sys2Proof.Machine

/-! ## Fields of the bit patterns (R82, R83)

With these, `decode` of a pattern is computed by its match on the family alone. -/

@[simp] theorem fields_patternA (op : BitVec 4) (nnn : BitVec 12) :
    fieldOp (patternA op nnn) = op.toNat ∧ fieldNnn (patternA op nnn) = nnn :=
  fields_of_A (toNat_patternA op nnn)

@[simp] theorem fields_patternXK (op : BitVec 4) (x : Reg) (kk : Byte) :
    fieldOp (patternXK op x kk) = op.toNat ∧ fieldX (patternXK op x kk) = x ∧
      fieldKk (patternXK op x kk) = kk :=
  fields_of_XK (toNat_patternXK op x kk)

@[simp] theorem fields_patternXYN (op : BitVec 4) (x y : Reg) (n : BitVec 4) :
    fieldOp (patternXYN op x y n) = op.toNat ∧ fieldX (patternXYN op x y n) = x ∧
      fieldY (patternXYN op x y n) = y ∧ fieldN (patternXYN op x y n) = n.toFin :=
  fields_of_XYN (n := n.toFin) (toNat_patternXYN op x y n)

/-! ## Jumps (R131, R137) -/

theorem exec_jump (nnn : BitVec 12) (s : State) :
    exec (.jump nnn) s = .next (setPc (immAddress nnn) s) := rfl

theorem exec_jumpOffset (nnn : BitVec 12) (s : State) :
    exec (.jumpOffset nnn) s = .next (setPc (BitVec.ofNat 16 (nnn.toNat + (readV s 0).toNat)) s) := rfl

theorem immAddress_toNat (nnn : BitVec 12) : (immAddress nnn).toNat = nnn.toNat :=
  BitVec.toNat_setWidth_of_le (by decide)

/-- The sum of a 12-bit address and a byte never reaches 65536, so the reduction of R137 is idle. -/
theorem jumpOffsetTarget_toNat (nnn : BitVec 12) (b : Byte) :
    (BitVec.ofNat 16 (nnn.toNat + b.toNat)).toNat = nnn.toNat + b.toNat := by
  have := nnn.isLt
  have := b.isLt
  rw [BitVec.toNat_ofNat]
  exact Nat.mod_eq_of_lt (by omega)

/-- Settles O28. -/
theorem jumpSetsPc : Obligations.JumpSetsPc := fun nnn s =>
  ⟨by simp [decode], _, exec_jump nnn s, immAddress_toNat nnn, setPc_changesOnly _ s⟩

/-- Settles O35. -/
theorem jumpOffsetAddsV0 : Obligations.JumpOffsetAddsV0 := fun nnn s =>
  ⟨by simp [decode], _, exec_jumpOffset nnn s, jumpOffsetTarget_toNat nnn _, setPc_changesOnly _ s⟩

/-! ## Skips on registers (R133 to R136) -/

theorem exec_skipEqImm (x : Reg) (kk : Byte) (s : State) :
    exec (.skipEqImm x kk) s = .next (skipIf (decide (readV s x = kk)) s) := rfl

theorem exec_skipNeImm (x : Reg) (kk : Byte) (s : State) :
    exec (.skipNeImm x kk) s = .next (skipIf (decide (readV s x ≠ kk)) s) := rfl

theorem exec_skipEqReg (x y : Reg) (s : State) :
    exec (.skipEqReg x y) s = .next (skipIf (decide (readV s x = readV s y)) s) := rfl

theorem exec_skipNeReg (x y : Reg) (s : State) :
    exec (.skipNeReg x y) s = .next (skipIf (decide (readV s x ≠ readV s y)) s) := rfl

/-- A skip on a proposition (R115). -/
theorem skipIf_decide_pc (c : Prop) [Decidable c] (s : State) :
    (skipIf (decide c) s).pc = if c then s.pc + 4 else s.pc + 2 := by
  simp only [skipIf_pc, decide_eq_true_eq]

/-- A skip on the opposite of a proposition: the two distances change places. -/
theorem skipIf_decide_not_pc (c : Prop) [Decidable c] (s : State) :
    (skipIf (decide (¬c)) s).pc = if c then s.pc + 2 else s.pc + 4 := by
  rw [skipIf_decide_pc, ite_not]

/-- Settles O32. -/
theorem skipOnImmediate : Obligations.SkipOnImmediate := fun x kk s =>
  ⟨by simp [decode], by simp [decode],
    ⟨_, exec_skipEqImm x kk s, skipIf_decide_pc _ s, skipIf_changesOnly _ s⟩,
    ⟨_, exec_skipNeImm x kk s, skipIf_decide_not_pc _ s, skipIf_changesOnly _ s⟩⟩

/-- Settles O33. -/
theorem skipOnRegisters : Obligations.SkipOnRegisters := fun x y s =>
  ⟨by simp [decode], by simp [decode],
    ⟨_, exec_skipEqReg x y s, skipIf_decide_pc _ s, skipIf_changesOnly _ s⟩,
    ⟨_, exec_skipNeReg x y s, skipIf_decide_not_pc _ s, skipIf_changesOnly _ s⟩⟩

end Sys2Proof.Machine
end

section
/-! Register moves and bitwise logic (42_alu.md R152 to R157): each writes one register and advances,
so value, `PC` and frame are stated once for every value written. -/

namespace Sys2Proof.Machine

/-! ## One register written, then `advance` -/

theorem readV_advance_setV (x : Reg) (b : Byte) (s : State) : readV (advance (setV x b s)) x = b := by
  rw [readV_advance, readV_setV, if_pos rfl]

theorem advance_setV_pc (x : Reg) (b : Byte) (s : State) : (advance (setV x b s)).pc = s.pc + 2 := by
  rw [advance_pc, setV_pc]

/-- No flag is among the written pieces: `VF` changes only as the destination. -/
theorem advance_setV_changesOnly (x : Reg) (b : Byte) (s : State) :
    ChangesOnly (fun p => p = .v x ∨ p = .pc) s (advance (setV x b s)) :=
  ((setV_changesOnly x b s).mono fun _ => .inl).trans ((advance_changesOnly _).mono fun _ => .inr)

/-! ## Loading, adding an immediate and copying (R152 to R154) -/

theorem exec_setImm (x : Reg) (kk : Byte) (s : State) :
    exec (.setImm x kk) s = .next (advance (setV x kk s)) := rfl

theorem exec_addImm (x : Reg) (kk : Byte) (s : State) : exec (.addImm x kk) s =
    .next (advance (setV x (BitVec.ofNat 8 ((readV s x).toNat + kk.toNat)) s)) := rfl

theorem exec_mov (x y : Reg) (s : State) :
    exec (.mov x y) s = .next (advance (setV x (readV s y) s)) := rfl

/-- Settles O36. -/
theorem setImmLoadsImmediate : Obligations.SetImmLoadsImmediate := fun x kk s =>
  ⟨by simp [decode], _, exec_setImm x kk s, readV_advance_setV x kk s, advance_setV_pc x kk s,
    advance_setV_changesOnly x kk s⟩

/-- Settles O37: the written byte is the sum reduced to 8 bits, which drops the carry. -/
theorem addImmWraps : Obligations.AddImmWraps := fun x kk s =>
  ⟨by simp [decode], _, exec_addImm x kk s, by rw [readV_advance_setV, BitVec.toNat_ofNat],
    advance_setV_pc x _ s, advance_setV_changesOnly x _ s⟩

/-- Settles O38. -/
theorem movCopiesRegister : Obligations.MovCopiesRegister := fun x y s =>
  ⟨by simp [decode, decodeEight], _, exec_mov x y s, readV_advance_setV x _ s, advance_setV_pc x _ s,
    advance_setV_changesOnly x _ s⟩

/-! ## Bitwise logic (R155 to R157) -/

theorem exec_orReg (x y : Reg) (s : State) :
    exec (.orReg x y) s = .next (advance (setV x (readV s x ||| readV s y) s)) := rfl

theorem exec_andReg (x y : Reg) (s : State) :
    exec (.andReg x y) s = .next (advance (setV x (readV s x &&& readV s y) s)) := rfl

theorem exec_xorReg (x y : Reg) (s : State) :
    exec (.xorReg x y) s = .next (advance (setV x (readV s x ^^^ readV s y) s)) := rfl

/-- Settles O39: the library says what each operation does to one bit. -/
theorem logicOperationsAreBitwise : Obligations.LogicOperationsAreBitwise := fun x y s =>
  ⟨by simp [decode, decodeEight], by simp [decode, decodeEight], by simp [decode, decodeEight],
    ⟨_, exec_orReg x y s, advance_setV_pc x _ s,
      fun _ _ => by rw [readV_advance_setV, BitVec.getLsbD_or], advance_setV_changesOnly x _ s⟩,
    ⟨_, exec_andReg x y s, advance_setV_pc x _ s,
      fun _ _ => by rw [readV_advance_setV, BitVec.getLsbD_and], advance_setV_changesOnly x _ s⟩,
    ⟨_, exec_xorReg x y s, advance_setV_pc x _ s,
      fun _ _ => by rw [readV_advance_setV, BitVec.getLsbD_xor], advance_setV_changesOnly x _ s⟩⟩

end Sys2Proof.Machine
end

section
/-! Loading the address register (43_index_memory.md R180, R182): both instructions write `I` and
advance, so value, `PC` and frame are stated once for every address written. -/

namespace Sys2Proof.Machine

/-! ## The address register written, then `advance` -/

theorem advance_setI_iReg (a : Word) (s : State) : (advance (setI a s)).iReg = a := by
  rw [advance_iReg, setI_iReg]

theorem advance_setI_pc (a : Word) (s : State) : (advance (setI a s)).pc = s.pc + 2 := by
  rw [advance_pc, setI_pc]

theorem advance_setI_changesOnly (a : Word) (s : State) :
    ChangesOnly (fun p => p = .i ∨ p = .pc) s (advance (setI a s)) :=
  ((setI_changesOnly a s).mono fun _ => .inl).trans ((advance_changesOnly _).mono fun _ => .inr)

/-! ## An immediate address and the address of a glyph (R180, R182) -/

theorem exec_setI (nnn : BitVec 12) (s : State) :
    exec (.setI nnn) s = .next (advance (setI (immAddress nnn) s)) := rfl

theorem exec_fontPtr (x : Reg) (s : State) :
    exec (.fontPtr x) s = .next (advance (setI (BitVec.ofNat 16 ((readV s x).toNat * 5)) s)) := rfl

/-- Five times a byte is at most 1275, so it fits the 16 bits of `I` unreduced (R182). -/
theorem glyphAddress_toNat (b : Byte) : (BitVec.ofNat 16 (b.toNat * 5)).toNat = 5 * b.toNat := by
  have := b.isLt
  rw [BitVec.toNat_ofNat, Nat.mul_comm]
  exact Nat.mod_eq_of_lt (by omega)

/-- Settles O45. -/
theorem setILoadsAddress : Obligations.SetILoadsAddress := fun nnn s =>
  ⟨by simp [decode], _, exec_setI nnn s, by rw [advance_setI_iReg, immAddress_toNat],
    advance_setI_pc _ s, advance_setI_changesOnly _ s⟩

/-- Settles O47. -/
theorem fontPtrPointsAtGlyph : Obligations.FontPtrPointsAtGlyph := fun x s =>
  ⟨by simp [decode, decodeF], _, exec_fontPtr x s, by rw [advance_setI_iReg, glyphAddress_toNat],
    advance_setI_pc _ s, advance_setI_changesOnly _ s⟩

end Sys2Proof.Machine
end

section
/-! The sprite blitter (44_display.md R203, R204). Its loops are a sequence of drawings of pairwise
disjoint sets of pixels, so one relation describes the pixel, the columns, the rows and the sprite. -/

namespace Sys2Proof.Machine

/-! ## Inverting a set of pixels -/

/-- Drawing took `acc` to `acc'` by inverting exactly the pixels of `S`, and has recorded a collision
iff it had before or a pixel of `S` was on. -/
structure Inverts (S : Fin 64 → Fin 32 → Prop) (acc acc' : Blitted) : Prop where
  pixels : ∀ cx cy, pixel acc'.1 cx cy = true ↔ ¬ (pixel acc.1 cx cy = true ↔ S cx cy)
  collided : acc'.2 = true ↔ acc.2 = true ∨ ∃ cx cy, S cx cy ∧ pixel acc.1 cx cy = true

namespace Inverts

variable {S T : Fin 64 → Fin 32 → Prop} {a b c : Blitted}

theorem congr (h : Inverts S a b) (hST : ∀ cx cy, S cx cy ↔ T cx cy) : Inverts T a b := by
  obtain rfl : S = T := funext₂ fun cx cy => propext (hST cx cy)
  exact h

theorem refl (hS : ∀ cx cy, ¬ S cx cy) (a : Blitted) : Inverts S a a where
  pixels cx cy := by simp [hS cx cy]
  collided := by simp [hS]

/-- A pixel outside the set is as before. -/
theorem pixel_eq (h : Inverts S a b) {cx : Fin 64} {cy : Fin 32} (hS : ¬ S cx cy) :
    pixel b.1 cx cy = true ↔ pixel a.1 cx cy = true := by
  simp [h.pixels, hS]

/-- Two drawings that share no pixel: neither sees what the other did, so together they invert the
union and collide iff one of them would alone. -/
theorem union (h₁ : Inverts S a b) (h₂ : Inverts T b c) (hd : ∀ cx cy, T cx cy → ¬ S cx cy) :
    Inverts (fun cx cy => S cx cy ∨ T cx cy) a c where
  pixels cx cy := by
    have := hd cx cy
    rw [h₂.pixels, h₁.pixels]
    tauto
  collided := by
    have hT : (∃ cx cy, T cx cy ∧ pixel b.1 cx cy = true) ↔ ∃ cx cy, T cx cy ∧ pixel a.1 cx cy = true :=
      exists₂_congr fun cx cy => and_congr_right fun ht => h₁.pixel_eq (hd cx cy ht)
    rw [h₂.collided, h₁.collided, hT, or_assoc]
    simp only [or_and_right, exists_or]

end Inverts

theorem blitPixel_inverts (x : Fin 64) (y : Fin 32) (acc : Blitted) :
    Inverts (fun cx cy => x = cx ∧ y = cy) acc (blitPixel x y acc) where
  pixels cx cy := by
    rw [blitPixel, pixel_flipPixel, Bool.xor_iff_ne, ne_eq, Bool.eq_iff_iff, decide_eq_true_eq]
  collided := by simp [blitPixel]

/-! ## The columns of one row -/

/-- The pixels under the set bits among the first `n` columns of `row`, drawn at `(x0, y)`. -/
def ColumnsCover (x0 : Nat) (y : Fin 32) (row : Byte) (n : Nat) (cx : Fin 64) (cy : Fin 32) : Prop :=
  ∃ c < n, row.getLsbD (7 - c) = true ∧ wrapColumn (x0 + c) = cx ∧ y = cy

theorem columnsCover_succ (x0 : Nat) (y : Fin 32) (row : Byte) (n : Nat) (cx : Fin 64) (cy : Fin 32) :
    ColumnsCover x0 y row (n + 1) cx cy ↔ ColumnsCover x0 y row n cx cy ∨
      row.getLsbD (7 - n) = true ∧ wrapColumn (x0 + n) = cx ∧ y = cy :=
  Nat.exists_lt_succ_right

/-- Columns less than 64 apart are different after wrapping. -/
theorem wrapColumn_not_covered {x0 n : Nat} (hn : n < 64) (y : Fin 32) (row : Byte) (cy : Fin 32) :
    ¬ ColumnsCover x0 y row n (wrapColumn (x0 + n)) cy := by
  rintro ⟨c, hc, -, hx, -⟩
  have := congrArg Fin.val hx
  simp only [wrapColumn_val] at this
  omega

theorem blitColumns_inverts (x0 : Nat) (y : Fin 32) (row : Byte) (acc : Blitted) :
    ∀ n ≤ 64, Inverts (ColumnsCover x0 y row n) acc (blitColumns x0 y row n acc)
  | 0, _ => .refl (by simp [ColumnsCover]) acc
  | n + 1, hn => by
    have ih := blitColumns_inverts x0 y row acc n (by omega)
    rw [blitColumns]
    split
    case isTrue hbit =>
      refine (ih.union (blitPixel_inverts (wrapColumn (x0 + n)) y _) ?_).congr fun cx cy => ?_
      · rintro _ cy ⟨rfl, -⟩
        exact wrapColumn_not_covered hn y row cy
      · simp [columnsCover_succ, hbit]
    case isFalse hbit =>
      exact ih.congr fun cx cy => by simp [columnsCover_succ, hbit]

/-! ## The rows of a sprite -/

theorem spriteCovers_cons (x0 y0 : Nat) (row : Byte) (rows : List Byte) (cx : Fin 64) (cy : Fin 32) :
    SpriteCovers x0 y0 (row :: rows) cx cy ↔
      ColumnsCover x0 (wrapRow y0) row 8 cx cy ∨ SpriteCovers x0 (y0 + 1) rows cx cy := by
  constructor
  · rintro ⟨_ | r, c, hr, hc, hbit, hx, hy⟩
    · exact .inl ⟨c, hc, hbit, Fin.ext hx.symm, Fin.ext hy.symm⟩
    · exact .inr ⟨r, c, Nat.lt_of_succ_lt_succ hr, hc, hbit, hx, by omega⟩
  · rintro (⟨c, hc, hbit, rfl, rfl⟩ | ⟨r, c, hr, hc, hbit, hx, hy⟩)
    · exact ⟨0, c, Nat.succ_pos _, hc, hbit, rfl, rfl⟩
    · exact ⟨r + 1, c, Nat.succ_lt_succ hr, hc, hbit, hx, by omega⟩

/-- Rows less than 32 apart are different after wrapping. -/
theorem spriteCovers_not_columnsCover {x0 y0 : Nat} {rows : List Byte} (hlen : rows.length < 32)
    (row : Byte) (cx : Fin 64) (cy : Fin 32) (h : SpriteCovers x0 (y0 + 1) rows cx cy) :
    ¬ ColumnsCover x0 (wrapRow y0) row 8 cx cy := by
  rintro ⟨-, -, -, -, rfl⟩
  obtain ⟨r, -, hr, -, -, -, hy⟩ := h
  rw [wrapRow_val] at hy
  omega

theorem blitRows_inverts (x0 : Nat) :
    ∀ (y0 : Nat) (rows : List Byte) (acc : Blitted), rows.length ≤ 32 →
      Inverts (SpriteCovers x0 y0 rows) acc (blitRows x0 y0 rows acc)
  | _, [], acc, _ => .refl (by simp [SpriteCovers]) acc
  | y0, row :: rows, acc, hlen =>
    have first := blitColumns_inverts x0 (wrapRow y0) row acc 8 (by decide)
    have rest := blitRows_inverts x0 (y0 + 1) rows (blitColumns x0 (wrapRow y0) row 8 acc)
      (Nat.le_of_succ_le hlen)
    (first.union rest (spriteCovers_not_columnsCover hlen row)).congr fun cx cy =>
      (spriteCovers_cons x0 y0 row rows cx cy).symm

/-- Up to the 32 rows of the screen no pixel is visited twice (R203). -/
theorem blit_inverts (x0 y0 : Nat) {rows : List Byte} (fb : Framebuffer) (hlen : rows.length ≤ 32) :
    Inverts (SpriteCovers x0 y0 rows) (fb, false) (blit x0 y0 rows fb) :=
  blitRows_inverts x0 y0 rows (fb, false) hlen

/-- Settles O54: at most 15 rows are within the 32 of the screen. -/
theorem blitXorsTheCoveredPixels : Obligations.BlitXorsTheCoveredPixels := fun x0 y0 _ fb hlen =>
  have drawn := blit_inverts x0 y0 fb (hlen.trans (by decide))
  ⟨drawn.pixels, by simpa using drawn.collided⟩

end Sys2Proof.Machine
end

section
/-! The timer instructions (45_input_timers.md R228 to R230). Reading `DT` is one register written, then
`advance`, as in the register moves above; setting a timer writes that timer and advances. -/

namespace Sys2Proof.Machine

/-! ## Reading the delay timer (R228) -/

theorem exec_getDelay (x : Reg) (s : State) :
    exec (.getDelay x) s = .next (advance (setV x s.dt s)) := rfl

/-- Settles O59. -/
theorem getDelayReadsTheTimer : Obligations.GetDelayReadsTheTimer := fun x s =>
  ⟨by simp [decode, decodeF], _, exec_getDelay x s, readV_advance_setV x _ s, advance_setV_pc x _ s,
    advance_setV_changesOnly x _ s⟩

/-! ## A timer written, then `advance` -/

theorem setDt_changesOnly (b : Byte) (s : State) : ChangesOnly (fun p => p = .dt) s (setDt b s) := by
  intro p hp
  cases p with
  | dt => exact absurd rfl hp
  | _ => simp [SamePiece]

theorem setSt_changesOnly (b : Byte) (s : State) : ChangesOnly (fun p => p = .st) s (setSt b s) := by
  intro p hp
  cases p with
  | st => exact absurd rfl hp
  | _ => simp [SamePiece]

theorem advance_setDt_changesOnly (b : Byte) (s : State) :
    ChangesOnly (fun p => p = .dt ∨ p = .pc) s (advance (setDt b s)) :=
  ((setDt_changesOnly b s).mono fun _ => .inl).trans ((advance_changesOnly _).mono fun _ => .inr)

theorem advance_setSt_changesOnly (b : Byte) (s : State) :
    ChangesOnly (fun p => p = .st ∨ p = .pc) s (advance (setSt b s)) :=
  ((setSt_changesOnly b s).mono fun _ => .inl).trans ((advance_changesOnly _).mono fun _ => .inr)

/-! ## Setting the timers (R229, R230) -/

theorem exec_setDelay (x : Reg) (s : State) :
    exec (.setDelay x) s = .next (advance (setDt (readV s x) s)) := rfl

theorem exec_setSound (x : Reg) (s : State) :
    exec (.setSound x) s = .next (advance (setSt (readV s x) s)) := rfl

/-- Settles O60. -/
theorem setTimersFromRegister : Obligations.SetTimersFromRegister := fun x s =>
  ⟨by simp [decode, decodeF], by simp [decode, decodeF],
    ⟨_, exec_setDelay x s, by rw [advance_dt, setDt_dt], by rw [advance_pc, setDt_pc],
      advance_setDt_changesOnly _ s⟩,
    ⟨_, exec_setSound x s, by rw [advance_st, setSt_st], by rw [advance_pc, setSt_pc],
      advance_setSt_changesOnly _ s⟩⟩

end Sys2Proof.Machine
end

section
/-! The decoder against the encoder and the opcode table (30_encoding.md R80 to R98). The encoding of an
instruction is its bit pattern, so the fields of the patterns decode it; a word that decodes is put
together again from its fields; and distinct rows of the table share no word. -/

namespace Sys2Proof.Machine

/-! ## The encoding formats are the bit patterns (R83, R96) -/

theorem encodeA_eq_patternA {op : Nat} (h : op < 16) (nnn : BitVec 12) :
    encodeA op nnn = patternA (BitVec.ofNat 4 op) nnn :=
  BitVec.eq_of_toNat_eq <| by
    rw [toNat_encodeA h, toNat_patternA, BitVec.toNat_ofNat, Nat.mod_eq_of_lt h]

theorem encodeXK_eq_patternXK {op : Nat} (h : op < 16) (x : Reg) (kk : Byte) :
    encodeXK op x kk = patternXK (BitVec.ofNat 4 op) x kk :=
  BitVec.eq_of_toNat_eq <| by
    rw [toNat_encodeXK h, toNat_patternXK, BitVec.toNat_ofNat, Nat.mod_eq_of_lt h]

theorem encodeXYN_eq_patternXYN {op n : Nat} (h : op < 16) (hn : n < 16) (x y : Reg) :
    encodeXYN op x y n = patternXYN (BitVec.ofNat 4 op) x y (BitVec.ofNat 4 n) :=
  BitVec.eq_of_toNat_eq <| by
    rw [toNat_encodeXYN h hn, toNat_patternXYN, BitVec.toNat_ofNat, BitVec.toNat_ofNat,
      Nat.mod_eq_of_lt h, Nat.mod_eq_of_lt hn]

theorem encodeX_eq_patternXK {op sub : Nat} (h : op < 16) (hs : sub < 256) (x : Reg) :
    encodeX op x sub = patternXK (BitVec.ofNat 4 op) x (BitVec.ofNat 8 sub) :=
  BitVec.eq_of_toNat_eq <| by
    rw [toNat_encodeX h hs, toNat_patternXK, BitVec.toNat_ofNat, BitVec.toNat_ofNat,
      Nat.mod_eq_of_lt h, Nat.mod_eq_of_lt hs]

theorem wellFormed_flagsSave {x : Reg} : WellFormed (.flagsSave x) ↔ x.val ≤ 7 := decide_eq_true_iff

theorem wellFormed_flagsLoad {x : Reg} : WellFormed (.flagsLoad x) ↔ x.val ≤ 7 := decide_eq_true_iff

/-- Settles O1: each encoding is a bit pattern, whose fields are the operands. -/
theorem decodeOfEncodeGivesInstrBack : Obligations.DecodeOfEncodeGivesInstrBack := by
  intro i hwf
  cases i with
  | clearScreen | ret => decide
  | jump | call | setI | jumpOffset => simp [encode, encodeA_eq_patternA, decode]
  | skipEqImm | skipNeImm | setImm | addImm | randAnd => simp [encode, encodeXK_eq_patternXK, decode]
  | skipEqReg | skipNeReg => simp [encode, encodeXYN_eq_patternXYN, decode]
  | mov | orReg | andReg | xorReg | addReg | subReg | shiftRight | subRev | shiftLeft =>
    simp [encode, encodeXYN_eq_patternXYN, decode, decodeEight]
  | draw x y n => simp [encode, encodeXYN_eq_patternXYN, decode]
  | skipKeyDown | skipKeyUp => simp [encode, encodeX_eq_patternXK, decode, decodeE]
  | getDelay | waitKey | setDelay | setSound | addToI | fontPtr | bcdStore | regDump | regLoad =>
    simp [encode, encodeX_eq_patternXK, decode, decodeF]
  | flagsSave x =>
    simp [encode, encodeX_eq_patternXK, decode, decodeF, flagCellOperandOk, wellFormed_flagsSave.1 hwf]
  | flagsLoad x =>
    simp [encode, encodeX_eq_patternXK, decode, decodeF, flagCellOperandOk, wellFormed_flagsLoad.1 hwf]

/-! ## A word is put together again from its fields (R82) -/

theorem fieldOp_lt (w : Word) : fieldOp w < 16 := (w.extractLsb' 12 4).isLt

theorem encodeA_fields {w : Word} {op : Nat} (hop : fieldOp w = op) : encodeA op (fieldNnn w) = w := by
  subst hop
  apply BitVec.eq_of_toNat_eq
  rw [toNat_encodeA (fieldOp_lt w), fieldOp_eq, fieldNnn_toNat]; omega

theorem encodeXK_fields {w : Word} {op : Nat} (hop : fieldOp w = op) :
    encodeXK op (fieldX w) (fieldKk w) = w := by
  subst hop
  apply BitVec.eq_of_toNat_eq
  rw [toNat_encodeXK (fieldOp_lt w), fieldOp_eq, fieldX_val, fieldKk_toNat]; omega

theorem encodeXYN_fields {w : Word} {op n : Nat} (hop : fieldOp w = op) (hn : (fieldN w).val = n) :
    encodeXYN op (fieldX w) (fieldY w) n = w := by
  subst hop hn
  apply BitVec.eq_of_toNat_eq
  rw [toNat_encodeXYN (fieldOp_lt w) (fieldN w).isLt, fieldOp_eq, fieldX_val, fieldY_val, fieldN_val]
  omega

/-- The formats whose sub-operation is the low byte. -/
theorem encodeX_fields {w : Word} {op : Nat} {sub : Byte} (hop : fieldOp w = op) (hsub : fieldKk w = sub) :
    encodeX op (fieldX w) sub.toNat = w := by
  subst hsub
  exact encodeXK_fields hop

/-! ## A decoded word is the encoding of its instruction (R85) -/

/-- What decoding to an instruction should mean: the word is that instruction's one spelling. -/
def Spells (w : Word) (d : Decoded) : Prop := ∀ i, d = .instr i → WellFormed i ∧ encode i = w

theorem spells_rejected (w : Word) (r : Rejection) : Spells w (.rejected r) := fun _ h => nomatch h

theorem spells_instr {w : Word} {i : Instr} (hwf : WellFormed i) (h : encode i = w) :
    Spells w (.instr i) := by
  rintro _ ⟨⟩
  exact ⟨hwf, h⟩

theorem spells_ite {w : Word} {c : Prop} [Decidable c] {d e : Decoded} (hd : c → Spells w d)
    (he : ¬c → Spells w e) : Spells w (if c then d else e) := by
  split
  · exact hd ‹_›
  · exact he ‹_›

theorem decodeZero_spells (w : Word) : Spells w (decodeZero w) :=
  spells_ite (fun h => spells_instr rfl h.symm) fun _ =>
    spells_ite (fun h => spells_instr rfl h.symm) fun _ => spells_rejected w _

theorem decodeEight_spells {w : Word} (hop : fieldOp w = 0x8) : Spells w (decodeEight w) := by
  unfold decodeEight
  split
  case h_10 => exact spells_rejected w _
  all_goals next hn => exact spells_instr rfl (encodeXYN_fields hop hn)

theorem decodeE_spells {w : Word} (hop : fieldOp w = 0xE) : Spells w (decodeE w) :=
  spells_ite (fun h => spells_instr rfl (encodeX_fields hop h)) fun _ =>
    spells_ite (fun h => spells_instr rfl (encodeX_fields hop h)) fun _ => spells_rejected w _

/-- Nine sub-operations take any register; the two flag-cell transfers check theirs (R92). -/
theorem decodeF_spells {w : Word} (hop : fieldOp w = 0xF) : Spells w (decodeF w) := by
  unfold decodeF
  iterate 9 refine spells_ite (fun h => spells_instr rfl (encodeX_fields hop h)) fun _ => ?_
  iterate 2
    refine spells_ite (fun h => spells_ite (fun hx => spells_instr hx (encodeX_fields hop h))
      fun _ => spells_rejected w _) fun _ => ?_
  exact spells_rejected w _

/-- Settles O2: family by family, the fields that make the instruction make the word. -/
theorem encodeOfDecodeGivesWordBack : Obligations.EncodeOfDecodeGivesWordBack := by
  intro w
  show Spells w (decode w)
  unfold decode
  split
  case h_1 => exact decodeZero_spells w
  case h_9 hop => exact decodeEight_spells hop
  case h_15 hop => exact decodeE_spells hop
  case h_16 =>
    have hlt := fieldOp_lt w
    exact decodeF_spells (by grind)
  case h_2 hop | h_3 hop | h_11 hop | h_12 hop => exact spells_instr rfl (encodeA_fields hop)
  case h_4 hop | h_5 hop | h_7 hop | h_8 hop | h_13 hop => exact spells_instr rfl (encodeXK_fields hop)
  case h_14 hop => exact spells_instr rfl (encodeXYN_fields hop rfl)
  case h_6 hop | h_10 hop =>
    exact spells_ite (fun hn => spells_instr rfl (encodeXYN_fields hop hn)) fun _ => spells_rejected w _

/-! ## The words that are no instruction (R92) -/

/-- The decoder answers no instruction. -/
def IsRejected (d : Decoded) : Prop := ∃ r, d = .rejected r

theorem isRejected_rejected (r : Rejection) : IsRejected (.rejected r) ↔ True := by simp [IsRejected]

theorem isRejected_instr (i : Instr) : IsRejected (.instr i) ↔ False := by simp [IsRejected]

theorem isRejected_ite {c : Prop} [Decidable c] (d e : Decoded) :
    IsRejected (if c then d else e) ↔ (c → IsRejected d) ∧ (¬c → IsRejected e) := by
  split <;> simp [*]

theorem fieldKk_eq_iff (w : Word) (sub : Byte) : fieldKk w = sub ↔ w.toNat % 256 = sub.toNat := by
  rw [← BitVec.toNat_inj, fieldKk_toNat]

theorem flagCellOperandOk_fieldX (w : Word) :
    flagCellOperandOk (fieldX w) = true ↔ w.toNat / 256 % 16 ≤ 7 := by
  rw [flagCellOperandOk, decide_eq_true_iff, fieldX_val]

theorem decodeZero_rejected (w : Word) :
    IsRejected (decodeZero w) ↔ w.toNat ≠ 0x00E0 ∧ w.toNat ≠ 0x00EE := by
  simp [decodeZero, isRejected_ite, isRejected_instr, isRejected_rejected, ← BitVec.toNat_inj]
  omega

theorem decodeEight_rejected (w : Word) :
    IsRejected (decodeEight w) ↔ w.toNat % 16 ∈ [0x8, 0x9, 0xA, 0xB, 0xC, 0xD, 0xF] := by
  have hlt : w.toNat % 16 < 16 := Nat.mod_lt _ (by decide)
  rw [decodeEight, fieldN_val]
  split
  case h_10 => simp [isRejected_rejected]; grind
  all_goals simp [isRejected_instr, *]

theorem decodeE_rejected (w : Word) :
    IsRejected (decodeE w) ↔ w.toNat % 256 ∉ [0x9E, 0xA1] := by
  simp [decodeE, isRejected_ite, isRejected_instr, isRejected_rejected, fieldKk_eq_iff]
  omega

theorem decodeF_rejected (w : Word) :
    IsRejected (decodeF w) ↔
      w.toNat % 256 ∉ [0x07, 0x0A, 0x15, 0x18, 0x1E, 0x29, 0x33, 0x55, 0x65, 0x75, 0x85] ∨
      (w.toNat % 256 ∈ [0x75, 0x85] ∧ 8 ≤ w.toNat / 256 % 16) := by
  simp only [decodeF, isRejected_ite, isRejected_instr, isRejected_rejected, fieldKk_eq_iff,
    flagCellOperandOk_fieldX]
  simp
  omega

/-- Settles O4. -/
theorem rejectedWordsAreTheListedClasses : Obligations.RejectedWordsAreTheListedClasses := by
  intro w
  show IsRejected (decode w) ↔ _
  have hlt := fieldOp_lt w
  rw [decode, fieldOp_eq] at *
  split
  case h_16 =>
    have hop : w.toNat / 4096 = 0xF := by grind
    simp [decodeF_rejected, hop]
  case h_1 hop => simp [decodeZero_rejected, hop]
  case h_9 hop => simp [decodeEight_rejected, hop]
  case h_15 hop => simp [decodeE_rejected, hop]
  all_goals next hop => simp [isRejected_ite, isRejected_instr, isRejected_rejected, fieldN_val, hop]

/-! ## The opcode table (R98) -/

/-- Every well-formed instruction's word selects the instruction's own row. -/
theorem encode_selects_rowOf : ∀ i, Laws.EncodingRow.Statement i
  | .clearScreen => Laws.EncodingRow.clearScreen
  | .ret => Laws.EncodingRow.ret
  | .jump nnn => Laws.EncodingRow.jump nnn
  | .call nnn => Laws.EncodingRow.call nnn
  | .skipEqImm x kk => Laws.EncodingRow.skipEqImm x kk
  | .skipNeImm x kk => Laws.EncodingRow.skipNeImm x kk
  | .skipEqReg x y => Laws.EncodingRow.skipEqReg x y
  | .setImm x kk => Laws.EncodingRow.setImm x kk
  | .addImm x kk => Laws.EncodingRow.addImm x kk
  | .mov x y => Laws.EncodingRow.mov x y
  | .orReg x y => Laws.EncodingRow.orReg x y
  | .andReg x y => Laws.EncodingRow.andReg x y
  | .xorReg x y => Laws.EncodingRow.xorReg x y
  | .addReg x y => Laws.EncodingRow.addReg x y
  | .subReg x y => Laws.EncodingRow.subReg x y
  | .shiftRight x y => Laws.EncodingRow.shiftRight x y
  | .subRev x y => Laws.EncodingRow.subRev x y
  | .shiftLeft x y => Laws.EncodingRow.shiftLeft x y
  | .skipNeReg x y => Laws.EncodingRow.skipNeReg x y
  | .setI nnn => Laws.EncodingRow.setI nnn
  | .jumpOffset nnn => Laws.EncodingRow.jumpOffset nnn
  | .randAnd x kk => Laws.EncodingRow.randAnd x kk
  | .draw x y n => Laws.EncodingRow.draw x y n
  | .skipKeyDown x => Laws.EncodingRow.skipKeyDown x
  | .skipKeyUp x => Laws.EncodingRow.skipKeyUp x
  | .getDelay x => Laws.EncodingRow.getDelay x
  | .waitKey x => Laws.EncodingRow.waitKey x
  | .setDelay x => Laws.EncodingRow.setDelay x
  | .setSound x => Laws.EncodingRow.setSound x
  | .addToI x => Laws.EncodingRow.addToI x
  | .fontPtr x => Laws.EncodingRow.fontPtr x
  | .bcdStore x => Laws.EncodingRow.bcdStore x
  | .regDump x => Laws.EncodingRow.regDump x
  | .regLoad x => Laws.EncodingRow.regLoad x
  | .flagsSave x => Laws.EncodingRow.flagsSave x
  | .flagsLoad x => Laws.EncodingRow.flagsLoad x

/-- A word that decodes selects the row of its instruction. -/
theorem decode_selects_rowOf {w : Word} {i : Instr} (h : decode w = .instr i) :
    w &&& (rowOf i).mask = (rowOf i).pattern := by
  obtain ⟨hwf, rfl⟩ := encodeOfDecodeGivesWordBack w i h
  exact encode_selects_rowOf i hwf

theorem rowOf_mem_opcodeTable (i : Instr) : rowOf i ∈ opcodeTable := by
  cases i <;> simp [rowOf, opcodeTable, opcodeRowsLow, opcodeRowsMiddle, opcodeRowsHigh]

/-- Any two rows of the table fix some bit differently that both of them fix. -/
theorem opcodeTable_pairwise :
    opcodeTable.Pairwise fun a b => a.pattern &&& b.mask ≠ b.pattern &&& a.mask := by
  decide

/-- So no word selects two of them. -/
theorem opcodeTable_select_disjoint (w : Word) :
    opcodeTable.Pairwise fun a b => ¬(w &&& a.mask = a.pattern ∧ w &&& b.mask = b.pattern) :=
  opcodeTable_pairwise.imp fun {a b} hne ⟨ha, hb⟩ => hne <| by
    rw [← ha, ← hb, BitVec.and_assoc, BitVec.and_comm a.mask, ← BitVec.and_assoc]

/-- Of elements no two of which pass a test together, one that passes is the only one. -/
theorem filter_eq_singleton {α : Type} {p : α → Bool} {a : α} {l : List α}
    (hl : l.Pairwise fun b c => ¬(p b = true ∧ p c = true)) (ha : a ∈ l) (hp : p a = true) :
    l.filter p = [a] := by
  induction l with
  | nil => simp at ha
  | cons b l ih =>
    rw [List.pairwise_cons] at hl
    rcases List.mem_cons.1 ha with rfl | hmem
    · rw [List.filter_cons_of_pos hp, List.filter_eq_nil_iff.2 fun c hc hpc => hl.1 c hc ⟨hp, hpc⟩]
    · rw [List.filter_cons_of_neg fun hpb => hl.1 a hmem ⟨hpb, hp⟩, ih hl.2 hmem]

/-! The test of a row under each mask, as arithmetic. -/

theorem and_F000_eq_iff (w p : Word) : w &&& 0xF000 = p ↔ w.toNat / 4096 * 4096 = p.toNat := by
  rw [← BitVec.toNat_inj, toNat_and_F000]

theorem and_F00F_eq_iff (w p : Word) :
    w &&& 0xF00F = p ↔ w.toNat / 4096 * 4096 + w.toNat % 16 = p.toNat := by
  rw [← BitVec.toNat_inj, toNat_and_F00F]

theorem and_F0FF_eq_iff (w p : Word) :
    w &&& 0xF0FF = p ↔ w.toNat / 4096 * 4096 + w.toNat % 256 = p.toNat := by
  rw [← BitVec.toNat_inj, toNat_and_F0FF]

theorem and_F8FF_eq_iff (w p : Word) :
    w &&& 0xF8FF = p ↔ w.toNat / 2048 * 2048 + w.toNat % 256 = p.toNat := by
  rw [← BitVec.toNat_inj, toNat_and_F8FF]

theorem and_FFFF_eq_iff (w p : Word) : w &&& 0xFFFF = p ↔ w.toNat = p.toNat := by
  rw [← BitVec.toNat_inj, show (0xFFFF : Word) = BitVec.allOnes 16 from rfl, BitVec.and_allOnes]

/-- A word in a class of R92 fails every row's test. -/
theorem rejected_selects_no_row {w : Word} (h : IsRejected (decode w)) :
    ∀ row ∈ opcodeTable, w &&& row.mask ≠ row.pattern := by
  replace h := (rejectedWordsAreTheListedClasses w).1 h
  simp only [opcodeTable, opcodeRowsLow, opcodeRowsMiddle, opcodeRowsHigh, List.forall_mem_append,
    List.forall_mem_cons, and_F000_eq_iff, and_F00F_eq_iff, and_F0FF_eq_iff, and_F8FF_eq_iff,
    and_FFFF_eq_iff, ne_eq, List.not_mem_nil, false_imp_iff, implies_true, and_true]
  simp only [List.mem_cons, List.not_mem_nil, or_false] at h
  and_intros <;> simp <;> omega

/-- Settles O3. -/
theorem decodeFollowsOpcodeTable : Obligations.DecodeFollowsOpcodeTable := by
  refine fun w => ⟨fun i h => ?_, fun r h => ?_⟩
  · refine filter_eq_singleton ?_ (rowOf_mem_opcodeTable i) (beq_iff_eq.2 (decode_selects_rowOf h))
    simpa only [beq_iff_eq] using opcodeTable_select_disjoint w
  · rw [List.filter_eq_nil_iff]
    simpa only [beq_iff_eq] using rejected_selects_no_row ⟨r, h⟩

/-- Settles O5. -/
theorem sampleWordsDecode : Obligations.SampleWordsDecode := by
  unfold Obligations.SampleWordsDecode
  decide

end Sys2Proof.Machine
end

section
/-! Calls, returns and the key instructions (41_control_flow.md R130, R132, R139; 45_input_timers.md
R222 to R225). A frame of several operations is built up one operation at a time. -/

namespace Sys2Proof.Machine

/-- One more operation, on a piece that the frame already names. -/
theorem ChangesOnly.then {written : Piece → Prop} {s t u : State} {p : Piece}
    (h : ChangesOnly written s t) (h' : ChangesOnly (fun q => q = p) t u) (hp : written p) :
    ChangesOnly written s u :=
  h.trans (h'.mono fun _ hq => hq ▸ hp)

/-! ## Calls and returns (R130, R132) -/

theorem exec_ret_empty {s : State} (h : s.stack = []) : exec .ret s = .fault (.stackUnderflow s.pc) := by
  simp only [exec, execRet, top?_none.2 h, raise]

theorem exec_ret_some {s : State} {rest : List Word} {a : Word} (h : s.stack = rest ++ [a]) :
    exec .ret s = .next (setPc (a + 2) (dropTop s)) := by
  simp only [exec, execRet, top?_some.2 ⟨rest, h⟩]

theorem exec_call_full {s : State} (h : s.cfg.stackLimit = some s.stack.length) (nnn : BitVec 12) :
    exec (.call nnn) s = .fault (.stackOverflow s.pc) := by
  simp only [exec, execCall, stackFull_iff.2 h, if_true, raise]

theorem exec_call_room {s : State} (h : s.cfg.stackLimit ≠ some s.stack.length) (nnn : BitVec 12) :
    exec (.call nnn) s = .next (setPc (immAddress nnn) (push s.pc s)) := by
  simp only [exec, execCall, stackFull_iff, h, if_false]

theorem push_changesOnly (a : Word) (s : State) : ChangesOnly (fun p => p = .stack) s (push a s) := by
  intro p hp
  cases p with
  | stack => exact absurd rfl hp
  | _ => simp [SamePiece]

theorem dropTop_changesOnly (s : State) : ChangesOnly (fun p => p = .stack) s (dropTop s) := by
  intro p hp
  cases p with
  | stack => exact absurd rfl hp
  | _ => simp [SamePiece]

theorem setPc_push_changesOnly (target a : Word) (s : State) :
    ChangesOnly (fun p => p = .stack ∨ p = .pc) s (setPc target (push a s)) :=
  ((push_changesOnly a s).mono fun _ => .inl).then (setPc_changesOnly _ _) (.inr rfl)

theorem setPc_dropTop_changesOnly (target : Word) (s : State) :
    ChangesOnly (fun p => p = .stack ∨ p = .pc) s (setPc target (dropTop s)) :=
  ((dropTop_changesOnly s).mono fun _ => .inl).then (setPc_changesOnly _ _) (.inr rfl)

theorem dropTop_stack_of_append {s : State} {rest : List Word} {a : Word} (h : s.stack = rest ++ [a]) :
    (dropTop s).stack = rest := by
  rw [dropTop_stack, h, List.dropLast_concat]

/-- Settles O29. -/
theorem callPushesItsOwnAddress : Obligations.CallPushesItsOwnAddress := fun nnn s =>
  ⟨by simp [decode],
    fun hroom => ⟨_, exec_call_room hroom nnn, rfl, immAddress_toNat nnn, setPc_push_changesOnly _ _ s⟩,
    fun hfull => exec_call_full hfull nnn⟩

/-- Settles O30. -/
theorem returnLandsBehindItsCall : Obligations.ReturnLandsBehindItsCall := fun s =>
  ⟨by decide,
    fun _ _ htop => ⟨_, exec_ret_some htop, dropTop_stack_of_append htop, rfl, setPc_dropTop_changesOnly _ s⟩,
    exec_ret_empty⟩

/-- A `CALL` that completes had room on the stack. -/
theorem exec_call_next {nnn : BitVec 12} {s t : State} (h : exec (.call nnn) s = .next t) :
    s.cfg.stackLimit ≠ some s.stack.length ∧ t = setPc (immAddress nnn) (push s.pc s) := by
  by_cases hfull : s.cfg.stackLimit = some s.stack.length
  · rw [exec_call_full hfull] at h
    cases h
  · rw [exec_call_room hfull] at h
    cases h
    exact ⟨hfull, rfl⟩

/-- Settles O31: the entry a `CALL` pushes is the one that `RETURN` pops. -/
theorem callThenReturnComesBack : Obligations.CallThenReturnComesBack := by
  intro nnn s t u hcall hstack
  obtain ⟨-, rfl⟩ := exec_call_next hcall
  have htop : u.stack = s.stack ++ [s.pc] := by rw [hstack, setPc_stack, push_stack]
  exact ⟨_, exec_ret_some htop, rfl, dropTop_stack_of_append htop⟩

/-! ## Keys (R221 to R224) -/

theorem exec_skipKeyDown (x : Reg) (s : State) :
    exec (.skipKeyDown x) s = .next (skipIf (keyPressed s (readV s x)) s) := rfl

theorem exec_skipKeyUp (x : Reg) (s : State) :
    exec (.skipKeyUp x) s = .next (skipIf (!keyPressed s (readV s x)) s) := rfl

theorem exec_waitKey (x : Reg) (s : State) : exec (.waitKey x) s = .next (setWait (.waiting x) s) := rfl

theorem keyPressed_eq_true {s : State} {k : Byte} :
    keyPressed s k = true ↔ k.toNat ≤ 15 ∧ (keySnapshot s).getLsbD k.toNat = true := by
  simp [keyPressed]

theorem keyPressed_eq_false {s : State} {k : Byte} :
    keyPressed s k = false ↔ 15 < k.toNat ∨ (keySnapshot s).getLsbD k.toNat = false := by
  simp [keyPressed, or_iff_not_imp_left]

/-- Settles O34: the two skips test opposite conditions. -/
theorem skipOnKey : Obligations.SkipOnKey := fun x s =>
  ⟨by simp [decode, decodeE], by simp [decode, decodeE], _, _, exec_skipKeyDown x s, exec_skipKeyUp x s,
    fun hdown => by simp [keyPressed_eq_true.2 hdown],
    fun hup => by simp [keyPressed_eq_false.2 hup],
    skipIf_changesOnly _ s, skipIf_changesOnly _ s⟩

/-- Settles O58. -/
theorem waitKeyEntersTheWait : Obligations.WaitKeyEntersTheWait := fun x s =>
  ⟨by simp [decode, decodeF], _, exec_waitKey x s, rfl, setWait_changesOnly _ s⟩

end Sys2Proof.Machine
end

section
/-! Arithmetic with a flag and the random byte (42_alu.md R158 to R163). Sums and differences write their
destination and then `VF`; the shifts write `VF` and then their destination. -/

namespace Sys2Proof.Machine

/-! ## The destination first, `VF` second (R158, R159, R161) -/

theorem readV_vf_of_flagLast (x : Reg) (b flag : Byte) (s : State) :
    readV (advance (setVF flag (setV x b s))) vf = flag := by
  rw [readV_advance, readV_setVF, if_pos rfl]

theorem readV_of_flagLast {x : Reg} (hx : x ≠ vf) (b flag : Byte) (s : State) :
    readV (advance (setVF flag (setV x b s))) x = b := by
  rw [readV_advance, readV_setVF, if_neg hx.symm, readV_setV, if_pos rfl]

theorem setVF_changesOnly (b : Byte) (s : State) : ChangesOnly (fun p => p = .v vf) s (setVF b s) :=
  setV_changesOnly vf b s

theorem flagLast_changesOnly (x : Reg) (b flag : Byte) (s : State) :
    ChangesOnly (fun p => p = .v x ∨ p = .v vf ∨ p = .pc) s (advance (setVF flag (setV x b s))) :=
  (((setV_changesOnly x b s).mono fun _ => .inl).then (setVF_changesOnly _ _) (.inr (.inl rfl))).then
    (advance_changesOnly _) (.inr (.inr rfl))

theorem exec_addReg (x y : Reg) (s : State) : exec (.addReg x y) s =
    .next (advance (setVF (carryFlag ((readV s x).toNat + (readV s y).toNat))
      (setV x (BitVec.ofNat 8 ((readV s x).toNat + (readV s y).toNat)) s))) := rfl

theorem carryFlag_eq (sum : Nat) : carryFlag sum = if 256 ≤ sum then 1 else 0 := by
  simp [carryFlag, flagByte]

/-- Settles O40. -/
theorem addRegSetsCarry : Obligations.AddRegSetsCarry := fun x y s =>
  ⟨by simp [decode, decodeEight], _, exec_addReg x y s,
    fun hx => by rw [readV_of_flagLast hx, BitVec.toNat_ofNat],
    by rw [readV_vf_of_flagLast, carryFlag_eq],
    rfl, flagLast_changesOnly x _ _ s⟩

theorem exec_subReg (x y : Reg) (s : State) :
    exec (.subReg x y) s = .next (advance (subtractInto x (readV s x) (readV s y) s)) := rfl

theorem exec_subRev (x y : Reg) (s : State) :
    exec (.subRev x y) s = .next (advance (subtractInto x (readV s y) (readV s x) s)) := rfl

theorem noBorrowFlag_sub (a b : Byte) :
    noBorrowFlag ((a.toNat : Int) - b.toNat) = if a.toNat < b.toNat then 0 else 1 := by
  have h : ((a.toNat : Int) - b.toNat < 0) ↔ a.toNat < b.toNat := by omega
  simp only [noBorrowFlag, flagByte, h, Bool.not_eq_true', decide_eq_false_iff_not, ite_not]

theorem toNat_ofInt_sub (a b : Byte) :
    (BitVec.ofInt 8 ((a.toNat : Int) - b.toNat)).toNat = (256 + a.toNat - b.toNat) % 256 := by
  have := b.isLt
  rw [BitVec.toNat_ofInt]
  omega

/-- What the shared subtraction leaves, for either order of the operands. -/
theorem advance_subtractInto (x : Reg) (a b : Byte) (s : State) :
    (x ≠ vf → (readV (advance (subtractInto x a b s)) x).toNat = (256 + a.toNat - b.toNat) % 256) ∧
    readV (advance (subtractInto x a b s)) vf = (if a.toNat < b.toNat then 0 else 1) ∧
    (advance (subtractInto x a b s)).pc = s.pc + 2 ∧
    ChangesOnly (fun p => p = .v x ∨ p = .v vf ∨ p = .pc) s (advance (subtractInto x a b s)) :=
  ⟨fun hx => by rw [subtractInto, readV_of_flagLast hx, toNat_ofInt_sub],
    by rw [subtractInto, readV_vf_of_flagLast, noBorrowFlag_sub],
    rfl, flagLast_changesOnly x _ _ s⟩

/-- Settles O41. -/
theorem subtractionsSetNoBorrow : Obligations.SubtractionsSetNoBorrow := fun x y s =>
  ⟨by simp [decode, decodeEight], by simp [decode, decodeEight],
    ⟨_, exec_subReg x y s, advance_subtractInto x _ _ s⟩,
    ⟨_, exec_subRev x y s, advance_subtractInto x _ _ s⟩⟩

/-! ## `VF` first, the destination second (R160, R162) -/

/-- Both shifts: the bit pushed out goes to `VF`, then the source, read again, is shifted into `V[x]`. -/
def shiftInto (bit shifted : Byte → Byte) (x src : Reg) (s : State) : State :=
  advance (setV x (shifted (readV (setVF (bit (readV s src)) s) src)) (setVF (bit (readV s src)) s))

theorem exec_shiftRight (x y : Reg) (s : State) : exec (.shiftRight x y) s =
    .next (shiftInto bitShiftedRight (· >>> 1) x (shiftSource s x y) s) := rfl

theorem exec_shiftLeft (x y : Reg) (s : State) : exec (.shiftLeft x y) s =
    .next (shiftInto bitShiftedLeft (· <<< 1) x (shiftSource s x y) s) := rfl

section
variable (bit shifted : Byte → Byte) (x src : Reg) (s : State)

/-- A source that is `VF` has already been replaced by the bit. -/
theorem readV_shiftInto_dest : readV (shiftInto bit shifted x src s) x =
    shifted (if src = vf then bit (readV s vf) else readV s src) := by
  rw [shiftInto, readV_advance, readV_setV, if_pos rfl, readV_setVF]
  split <;> split <;> simp_all

theorem readV_shiftInto_vf (hx : x ≠ vf) : readV (shiftInto bit shifted x src s) vf = bit (readV s src) := by
  rw [shiftInto, readV_advance, readV_setV, if_neg hx, readV_setVF, if_pos rfl]

theorem shiftInto_changesOnly :
    ChangesOnly (fun p => p = .v x ∨ p = .v vf ∨ p = .pc) s (shiftInto bit shifted x src s) :=
  (((setVF_changesOnly _ s).mono fun _ => .inr ∘ .inl).then (setV_changesOnly _ _ _) (.inl rfl)).then
    (advance_changesOnly _) (.inr (.inr rfl))

end

theorem bitShiftedRight_toNat (b : Byte) : (bitShiftedRight b).toNat = b.toNat % 2 := by
  simp [bitShiftedRight, Nat.and_one_is_mod]

theorem bitShiftedLeft_toNat (b : Byte) : (bitShiftedLeft b).toNat = b.toNat / 128 := by
  simp [bitShiftedLeft, Nat.shiftRight_eq_div_pow]

theorem toNat_shiftRight_one (b : Byte) : (b >>> 1).toNat = b.toNat / 2 := by
  rw [BitVec.toNat_ushiftRight, Nat.shiftRight_eq_div_pow]

theorem toNat_shiftLeft_one (b : Byte) : (b <<< 1).toNat = 2 * b.toNat % 256 := by
  rw [BitVec.toNat_shiftLeft, Nat.shiftLeft_eq, Nat.mul_comm]

/-- Settles O42: read after write gives the four cases, and half of a bit is 0. -/
theorem shiftRightMovesBitZeroToVF : Obligations.ShiftRightMovesBitZeroToVF := by
  refine fun x y src s => ⟨by simp [decode, decodeEight], fun hsrc => ?_⟩
  have hexec := exec_shiftRight x y s
  rw [shiftSource, ← hsrc] at hexec
  have hdest := readV_shiftInto_dest bitShiftedRight (· >>> 1) x src s
  have hflag := readV_shiftInto_vf bitShiftedRight (· >>> 1) x src s
  refine ⟨_, hexec, fun hx hs => ⟨?_, ?_⟩, fun hx hs => ?_, fun hx hs => ⟨?_, ?_⟩, fun hx hs => ?_, rfl,
    shiftInto_changesOnly _ _ x src s⟩
  · rw [hdest, if_neg hs, toNat_shiftRight_one]
  · rw [hflag hx, bitShiftedRight_toNat]
  · subst hx; rw [hdest, if_neg hs, toNat_shiftRight_one]
  · rw [hdest, if_pos hs, toNat_shiftRight_one, bitShiftedRight_toNat]; omega
  · rw [hflag hx, hs, bitShiftedRight_toNat]
  · subst hx; rw [hdest, if_pos hs, toNat_shiftRight_one, bitShiftedRight_toNat]; omega

/-- Settles O43: as for the right shift, and twice a bit does not wrap. -/
theorem shiftLeftMovesBitSevenToVF : Obligations.ShiftLeftMovesBitSevenToVF := by
  refine fun x y src s => ⟨by simp [decode, decodeEight], fun hsrc => ?_⟩
  have hexec := exec_shiftLeft x y s
  rw [shiftSource, ← hsrc] at hexec
  have hdest := readV_shiftInto_dest bitShiftedLeft (· <<< 1) x src s
  have hflag := readV_shiftInto_vf bitShiftedLeft (· <<< 1) x src s
  have hlt := (readV s vf).isLt
  refine ⟨_, hexec, fun hx hs => ⟨?_, ?_⟩, fun hx hs => ?_, fun hx hs => ⟨?_, ?_⟩, fun hx hs => ?_, rfl,
    shiftInto_changesOnly _ _ x src s⟩
  · rw [hdest, if_neg hs, toNat_shiftLeft_one]
  · rw [hflag hx, bitShiftedLeft_toNat]
  · subst hx; rw [hdest, if_neg hs, toNat_shiftLeft_one]
  · rw [hdest, if_pos hs, toNat_shiftLeft_one, bitShiftedLeft_toNat]; omega
  · rw [hflag hx, hs, bitShiftedLeft_toNat]
  · subst hx; rw [hdest, if_pos hs, toNat_shiftLeft_one, bitShiftedLeft_toNat]; omega

/-! ## The random byte (R163) -/

theorem exec_randAnd (x : Reg) (kk : Byte) (s : State) :
    exec (.randAnd x kk) s = .next (advance (setV x (kk &&& randomByte s) (takeRandom s))) := rfl

theorem randomByte_cons {s : State} {b : Byte} {rest : List Byte} (h : s.rndQueue = b :: rest) :
    randomByte s = b := by simp only [randomByte, h]

theorem randomByte_nil {s : State} (h : s.rndQueue = []) : randomByte s = Config.freeByte s.rndDraws := by
  simp only [randomByte, h]

theorem randAnd_changesOnly (x : Reg) (b : Byte) (s : State) :
    ChangesOnly (fun p => p = .v x ∨ p = .pc ∨ p = .rndInput) s (advance (setV x b (takeRandom s))) :=
  (((takeRandom_changesOnly s).mono fun _ => .inr ∘ .inr).then (setV_changesOnly _ _ _) (.inl rfl)).then
    (advance_changesOnly _) (.inr (.inl rfl))

/-- Settles O13. -/
theorem randomBytesAreTakenInOrder : Obligations.RandomBytesAreTakenInOrder := fun s x kk =>
  ⟨fun b rest hq => ⟨_, exec_randAnd x kk s, by rw [readV_advance_setV, randomByte_cons hq], by simp [hq]⟩,
    fun hq => ⟨_, exec_randAnd x kk s, by rw [readV_advance_setV, randomByte_nil hq], by simp [hq], rfl⟩⟩

/-- Settles O44. -/
theorem randAndMasksTheRandomByte : Obligations.RandAndMasksTheRandomByte := fun x kk s =>
  ⟨by simp [decode], _, exec_randAnd x kk s, readV_advance_setV x _ _, rfl, randAnd_changesOnly x _ s⟩

end Sys2Proof.Machine
end

section
/-! The address register, memory transfers and flag cells (43_index_memory.md R181, R183 to R187). Each
checked transfer has one lemma for a good range and one for a bad one; the frame of a loop is the frame
of its steps. -/

namespace Sys2Proof.Machine

variable {s : State} {x : Reg}

/-! ## Adding to the address register (R181) -/

theorem exec_addToI_unflagged (h : s.cfg.addISetsVf = false) (x : Reg) : exec (.addToI x) s =
    .next (advance (setI (BitVec.ofNat 16 (s.iReg.toNat + (readV s x).toNat)) s)) := by
  simp only [exec, execAddToI, setI_cfg, h, Bool.false_eq_true, if_false]

theorem exec_addToI_flagged (h : s.cfg.addISetsVf = true) (x : Reg) : exec (.addToI x) s =
    .next (advance (setVF (addressOverflowFlag (s.iReg.toNat + (readV s x).toNat))
      (setI (BitVec.ofNat 16 (s.iReg.toNat + (readV s x).toNat)) s))) := by
  simp only [exec, execAddToI, setI_cfg, h, if_true]

theorem addressOverflowFlag_eq (sum : Nat) : addressOverflowFlag sum = if 0xFFF < sum then 1 else 0 := by
  simp only [addressOverflowFlag, flagByte, decide_eq_true_eq]

theorem advance_setVF_setI_changesOnly (flag : Byte) (a : Word) (s : State) :
    ChangesOnly (fun p => p = .i ∨ p = .pc ∨ p = .v vf) s (advance (setVF flag (setI a s))) :=
  (((setI_changesOnly a s).mono fun _ => .inl).then (setVF_changesOnly _ _) (.inr (.inr rfl))).then
    (advance_changesOnly _) (.inr (.inl rfl))

/-- Settles O46. -/
theorem addToIWrapsAtSixteenBits : Obligations.AddToIWrapsAtSixteenBits := by
  refine fun x s => ⟨by simp [decode, decodeF], ?_⟩
  cases h : s.cfg.addISetsVf with
  | false =>
    exact ⟨_, exec_addToI_unflagged h x, BitVec.toNat_ofNat _ _, rfl,
      fun _ => advance_setI_changesOnly _ s, nofun⟩
  | true =>
    exact ⟨_, exec_addToI_flagged h x, BitVec.toNat_ofNat _ _, rfl, nofun,
      fun _ => ⟨by rw [readV_advance, readV_setVF, if_pos rfl, addressOverflowFlag_eq],
        advance_setVF_setI_changesOnly _ _ s⟩⟩

/-! ## The decimal digits (R183) -/

theorem exec_bcdStore_ok (h : s.iReg.toNat + 2 ≤ 0xFFF) (x : Reg) : exec (.bcdStore x) s =
    .next (advance (writeBytes (dataAddress s 0) (bcdDigits (readV s x)) s)) :=
  checkRange_ok (.inl (by rw [memSize]; omega)) _

theorem exec_bcdStore_bad (h : 0xFFF < s.iReg.toNat + 2) (x : Reg) :
    exec (.bcdStore x) s = .fault (.addressError (max s.iReg.toNat 0x1000)) :=
  checkRange_bad (by rw [memSize]; omega) (by decide) _

theorem writeBytes_changesOnly (bytes : List Byte) (a : Nat) (s : State) :
    ChangesOnly (fun p => ∃ k < bytes.length, p = .byte (a + k)) s (writeBytes a bytes s) := by
  intro p hp
  cases p with
  | byte c =>
    refine (readByte_writeBytes bytes a s c).trans (if_neg fun hc => hp ⟨c - a, by omega, ?_⟩)
    rw [Nat.add_sub_cancel' hc.1]
  | _ => simp [SamePiece]

/-- The byte at offset `k` of those written. -/
theorem readByte_writeBytes_offset {bytes : List Byte} {k : Nat} (h : k < bytes.length) (a : Nat) (s : State) :
    readByte (writeBytes a bytes s) (a + k) = bytes.getD k 0 := by
  rw [readByte_writeBytes, if_pos (by omega), Nat.add_sub_cancel_left]

theorem bcdStore_changesOnly (b : Byte) (s : State) :
    ChangesOnly (fun p => (∃ k < 3, p = .byte (dataAddress s k)) ∨ p = .pc) s
      (advance (writeBytes (dataAddress s 0) (bcdDigits b) s)) :=
  ((writeBytes_changesOnly _ _ s).mono fun _ => .inl).then (advance_changesOnly _) (.inr rfl)

/-- A digit `n`, which fits a byte, reads back at its offset. -/
theorem readByte_bcdStore {b : Byte} {k n : Nat} (hk : k < 3) (hn : n < 256)
    (hdigit : (bcdDigits b).getD k 0 = BitVec.ofNat 8 n) (s : State) :
    (readByte (advance (writeBytes (dataAddress s 0) (bcdDigits b) s)) (dataAddress s k)).toNat = n := by
  have hread := readByte_writeBytes_offset (bytes := bcdDigits b) hk (dataAddress s 0) s
  exact (congrArg BitVec.toNat (hread.trans hdigit)).trans ((BitVec.toNat_ofNat n 8).trans (Nat.mod_eq_of_lt hn))

/-- Settles O48. -/
theorem bcdStoreWritesThreeDigits : Obligations.BcdStoreWritesThreeDigits := by
  refine fun x s => ⟨by simp [decode, decodeF], fun h => ?_, fun h => exec_bcdStore_bad h x⟩
  have hlt := (readV s x).isLt
  exact ⟨_, exec_bcdStore_ok h x, readByte_bcdStore (by decide) (by omega) rfl s,
    readByte_bcdStore (by decide) (by omega) rfl s, readByte_bcdStore (by decide) (by omega) rfl s,
    by rw [advance_pc, writeBytes_pc], bcdStore_changesOnly _ s⟩

/-! ## The loops of the transfers -/

/-- The loop of `REG_DUMP` (R184). -/
def dumpLoop (x : Reg) (s : State) : State :=
  ascending (x.val + 1) (fun k s => writeByte (dataAddress s k) (readV s (regOfNat k)) s) s

/-- The loop of `REG_LOAD` (R185). -/
def loadLoop (x : Reg) (s : State) : State :=
  ascending (x.val + 1) (fun k s => setV (regOfNat k) (readByte s (dataAddress s k)) s) s

/-- The loop of `FLAGS_SAVE` (R186). -/
def saveLoop (x : Reg) (s : State) : State :=
  ascending (x.val + 1) (fun k s => setFlg (cellOfNat k) (readV s (regOfNat k)) s) s

/-- The loop of `FLAGS_LOAD` (R187). -/
def restoreLoop (x : Reg) (s : State) : State :=
  ascending (x.val + 1) (fun k s => setV (regOfNat k) (readFlg s (cellOfNat k)) s) s

@[simp] theorem regOfNat_val (x : Reg) : regOfNat x.val = x := Fin.ofNat_val_eq_self x

theorem regOfNat_le {k : Nat} (h : k < x.val + 1) : regOfNat k ≤ x :=
  Fin.le_def.2 ((Nat.mod_le k 16).trans (Nat.le_of_lt_succ h))

theorem cellOfNat_le {k : Nat} (h : k < x.val + 1) : (cellOfNat k).val ≤ x.val :=
  (Nat.mod_le k 8).trans (Nat.le_of_lt_succ h)

theorem dumpLoop_changesOnly (x : Reg) (s : State) :
    ChangesOnly (fun p => ∃ k ≤ x.val, p = .byte (dataAddress s k)) s (dumpLoop x s) := by
  refine ascending_keeps (ChangesOnly _ s) _ _ s (fun k u hk hu => ?_) (.refl _ s)
  have hi : u.iReg = s.iReg := hu .i (by simp)
  exact hu.then (writeByte_changesOnly _ _ u) ⟨k, by omega, by rw [dataAddress, dataAddress, hi]⟩

theorem loadLoop_changesOnly (x : Reg) (s : State) :
    ChangesOnly (fun p => ∃ r : Reg, r ≤ x ∧ p = .v r) s (loadLoop x s) :=
  ascending_keeps (ChangesOnly _ s) _ _ s
    (fun _ u hk hu => hu.then (setV_changesOnly _ _ u) ⟨_, regOfNat_le hk, rfl⟩) (.refl _ s)

theorem saveLoop_changesOnly (x : Reg) (s : State) :
    ChangesOnly (fun p => ∃ k : Fin 8, k.val ≤ x.val ∧ p = .flg k) s (saveLoop x s) :=
  ascending_keeps (ChangesOnly _ s) _ _ s
    (fun _ u hk hu => hu.then (setFlg_changesOnly _ _ u) ⟨_, cellOfNat_le hk, rfl⟩) (.refl _ s)

theorem restoreLoop_changesOnly (x : Reg) (s : State) :
    ChangesOnly (fun p => ∃ r : Reg, r ≤ x ∧ p = .v r) s (restoreLoop x s) :=
  ascending_keeps (ChangesOnly _ s) _ _ s
    (fun _ u hk hu => hu.then (setV_changesOnly _ _ u) ⟨_, regOfNat_le hk, rfl⟩) (.refl _ s)

@[simp] theorem dumpLoop_pc (x : Reg) (s : State) : (dumpLoop x s).pc = s.pc :=
  dumpLoop_changesOnly x s .pc (by simp)

@[simp] theorem loadLoop_pc (x : Reg) (s : State) : (loadLoop x s).pc = s.pc :=
  loadLoop_changesOnly x s .pc (by simp)

@[simp] theorem saveLoop_pc (x : Reg) (s : State) : (saveLoop x s).pc = s.pc :=
  saveLoop_changesOnly x s .pc (by simp)

@[simp] theorem restoreLoop_pc (x : Reg) (s : State) : (restoreLoop x s).pc = s.pc :=
  restoreLoop_changesOnly x s .pc (by simp)

theorem readByte_dumpLoop {k : Reg} (hk : k ≤ x) (s : State) :
    readByte (dumpLoop x s) (dataAddress s k.val) = readV s k := by
  have hk := Fin.le_def.1 hk
  rw [dumpLoop, (ascending_dump _ s).2, if_pos (by simp only [dataAddress]; omega)]
  simp [dataAddress]

theorem readV_loadLoop {k : Reg} (hk : k ≤ x) (s : State) :
    readV (loadLoop x s) k = readByte s (dataAddress s k.val) :=
  ((ascending_setV (fun s k => readByte s (dataAddress s k)) _ s fun _ _ _ _ => rfl).2.2 x.isLt k).trans
    (if_pos (Nat.lt_succ_of_le hk))

theorem readV_restoreLoop {k : Reg} (hk : k ≤ x) (s : State) :
    readV (restoreLoop x s) k = readFlg s (cellOfNat k.val) :=
  ((ascending_setV (fun s k => readFlg s (cellOfNat k)) _ s fun _ _ _ _ => rfl).2.2 x.isLt k).trans
    (if_pos (Nat.lt_succ_of_le hk))

theorem readFlg_saveLoop {k : Fin 8} (hx : x.val ≤ 7) (hk : k.val ≤ x.val) (s : State) :
    readFlg (saveLoop x s) k = readV s (regOfNat k.val) :=
  ((ascending_setFlg _ s).2 (by omega) k).trans (if_pos (Nat.lt_succ_of_le hk))

/-! ## Moving the address register on (R6) -/

theorem bumpI_changesOnly (x : Reg) (s : State) :
    ChangesOnly (fun p => p = .i ∧ s.cfg.memOpsIncrementI = true) s (bumpI x s) := by
  intro p hp
  cases p with
  | i => simp [SamePiece, show s.cfg.memOpsIncrementI ≠ true from fun h => hp ⟨rfl, h⟩]
  | _ => simp [SamePiece]

/-- The end of `REG_DUMP` and `REG_LOAD`, whatever their loop has written. -/
theorem advance_bumpI_changesOnly {written : Piece → Prop} {t : State} (x : Reg)
    (h : ChangesOnly written s t) (hparams : ¬ written .params) :
    ChangesOnly (fun p => written p ∨ p = .pc ∨ p = .i ∧ s.cfg.memOpsIncrementI = true) s
      (advance (bumpI x t)) := by
  have hcfg : t.cfg = s.cfg := h .params hparams
  refine ((h.mono fun _ => .inl).trans ?_).then (advance_changesOnly _) (.inr (.inl rfl))
  exact (bumpI_changesOnly x t).mono fun p hp => .inr (.inr (hcfg ▸ hp))

/-- `I` moves by `x + 1` iff the parameter says so, and does not wrap where the range was good. -/
theorem advance_bumpI_iReg {t : State} (hi : t.iReg = s.iReg) (hcfg : t.cfg = s.cfg)
    (h : s.iReg.toNat + x.val ≤ 0xFFF) :
    (s.cfg.memOpsIncrementI = true → (advance (bumpI x t)).iReg.toNat = s.iReg.toNat + x.val + 1) ∧
    (s.cfg.memOpsIncrementI = false → (advance (bumpI x t)).iReg = s.iReg) := by
  rw [advance_iReg, bumpI_iReg, hi, hcfg]
  refine ⟨fun hinc => ?_, fun hinc => by simp [hinc]⟩
  rw [if_pos hinc, BitVec.toNat_ofNat, Nat.mod_eq_of_lt (by omega)]

/-! ## Storing and filling registers (R184, R185) -/

theorem exec_regDump_ok (h : s.iReg.toNat + x.val ≤ 0xFFF) :
    exec (.regDump x) s = .next (advance (bumpI x (dumpLoop x s))) :=
  checkRange_ok (.inl (by rw [memSize]; omega)) _

theorem exec_regDump_bad (h : 0xFFF < s.iReg.toNat + x.val) :
    exec (.regDump x) s = .fault (.addressError (max s.iReg.toNat 0x1000)) :=
  checkRange_bad (by rw [memSize]; omega) (Nat.succ_ne_zero _) _

theorem exec_regLoad_ok (h : s.iReg.toNat + x.val ≤ 0xFFF) :
    exec (.regLoad x) s = .next (advance (bumpI x (loadLoop x s))) :=
  checkRange_ok (.inl (by rw [memSize]; omega)) _

theorem exec_regLoad_bad (h : 0xFFF < s.iReg.toNat + x.val) :
    exec (.regLoad x) s = .fault (.addressError (max s.iReg.toNat 0x1000)) :=
  checkRange_bad (by rw [memSize]; omega) (Nat.succ_ne_zero _) _

theorem regDump_changesOnly (x : Reg) (s : State) :
    ChangesOnly (fun p => (∃ k ≤ x.val, p = .byte (dataAddress s k)) ∨ p = .pc ∨
      p = .i ∧ s.cfg.memOpsIncrementI = true) s (advance (bumpI x (dumpLoop x s))) :=
  advance_bumpI_changesOnly x (dumpLoop_changesOnly x s) (by simp)

theorem regLoad_changesOnly (x : Reg) (s : State) :
    ChangesOnly (fun p => (∃ r : Reg, r ≤ x ∧ p = .v r) ∨ p = .pc ∨
      p = .i ∧ s.cfg.memOpsIncrementI = true) s (advance (bumpI x (loadLoop x s))) :=
  advance_bumpI_changesOnly x (loadLoop_changesOnly x s) (by simp)

/-- Settles O49. -/
theorem regDumpStoresRegisters : Obligations.RegDumpStoresRegisters := by
  refine fun x s => ⟨by simp [decode, decodeF], fun h => ?_, exec_regDump_bad⟩
  have hloop := dumpLoop_changesOnly x s
  obtain ⟨hinc, hkeep⟩ := advance_bumpI_iReg (t := dumpLoop x s) (hloop .i (by simp)) (hloop .params (by simp)) h
  refine ⟨_, exec_regDump_ok h, fun k hk => ?_, ?_, hinc, hkeep, (regDump_changesOnly x s).mono fun p => ?_⟩
  · rw [readByte_advance, readByte_bumpI, readByte_dumpLoop hk]
  · rw [advance_pc, bumpI_pc, dumpLoop_pc]
  · exact Or.imp_right (Or.imp_right And.left)

/-- Settles O50. -/
theorem regLoadFillsRegisters : Obligations.RegLoadFillsRegisters := by
  refine fun x s => ⟨by simp [decode, decodeF], fun h => ?_, exec_regLoad_bad⟩
  have hloop := loadLoop_changesOnly x s
  obtain ⟨hinc, hkeep⟩ := advance_bumpI_iReg (t := loadLoop x s) (hloop .i (by simp)) (hloop .params (by simp)) h
  refine ⟨_, exec_regLoad_ok h, fun k hk => ?_, ?_, hinc, hkeep, (regLoad_changesOnly x s).mono fun p => ?_⟩
  · rw [readV_advance, readV_bumpI, readV_loadLoop hk]
  · rw [advance_pc, bumpI_pc, loadLoop_pc]
  · exact Or.imp_right (Or.imp_right And.left)

/-! ## The flag cells (R186, R187) -/

theorem flagCellOperandOk_iff : flagCellOperandOk x = true ↔ x.val ≤ 7 := decide_eq_true_iff

theorem exec_flagsSave_ok (h : x.val ≤ 7) (s : State) :
    exec (.flagsSave x) s = .next (advance (saveLoop x s)) := if_pos (flagCellOperandOk_iff.2 h)

theorem exec_flagsLoad_ok (h : x.val ≤ 7) (s : State) :
    exec (.flagsLoad x) s = .next (advance (restoreLoop x s)) := if_pos (flagCellOperandOk_iff.2 h)

theorem exec_flagsSave_bad (h : 7 < x.val) (s : State) :
    exec (.flagsSave x) s = .fault (.decodeError (encode (.flagsSave x))) :=
  if_neg (mt flagCellOperandOk_iff.1 (by omega))

theorem exec_flagsLoad_bad (h : 7 < x.val) (s : State) :
    exec (.flagsLoad x) s = .fault (.decodeError (encode (.flagsLoad x))) :=
  if_neg (mt flagCellOperandOk_iff.1 (by omega))

theorem flagsSave_changesOnly (x : Reg) (s : State) :
    ChangesOnly (fun p => (∃ k : Fin 8, k.val ≤ x.val ∧ p = .flg k) ∨ p = .pc) s (advance (saveLoop x s)) :=
  ((saveLoop_changesOnly x s).mono fun _ => .inl).then (advance_changesOnly _) (.inr rfl)

theorem flagsLoad_changesOnly (x : Reg) (s : State) :
    ChangesOnly (fun p => (∃ r : Reg, r ≤ x ∧ p = .v r) ∨ p = .pc) s (advance (restoreLoop x s)) :=
  ((restoreLoop_changesOnly x s).mono fun _ => .inl).then (advance_changesOnly _) (.inr rfl)

theorem regOfNat_of_val_eq {r : Reg} {k : Nat} (h : r.val = k) : regOfNat k = r := by
  rw [← h, regOfNat_val]

theorem cellOfNat_of_val_eq {k : Fin 8} {n : Nat} (h : n = k.val) : cellOfNat n = k := by
  rw [h]; exact Fin.ofNat_val_eq_self k

theorem encode_flagsSave (x : Reg) : encode (.flagsSave x) = patternXK 0xF x 0x75 :=
  encodeX_eq_patternXK (by decide) (by decide) x

theorem encode_flagsLoad (x : Reg) : encode (.flagsLoad x) = patternXK 0xF x 0x85 :=
  encodeX_eq_patternXK (by decide) (by decide) x

/-- Settles O51. -/
theorem flagsSaveCopiesToCells : Obligations.FlagsSaveCopiesToCells := by
  refine fun x s => ⟨fun h => ⟨by simp [decode, decodeF, flagCellOperandOk, h], ?_⟩,
    fun h => ⟨⟨.flagCellsPastSeven, by simp [decode, decodeF, flagCellOperandOk, h]⟩, ?_⟩⟩
  · refine ⟨_, exec_flagsSave_ok h s, fun k r hkr hr => ?_, ?_, flagsSave_changesOnly x s⟩
    · rw [readFlg_advance, readFlg_saveLoop h (hkr ▸ Fin.le_def.1 hr), regOfNat_of_val_eq hkr]
    · rw [advance_pc, saveLoop_pc]
  · rw [exec_flagsSave_bad h, encode_flagsSave]

/-- Settles O52. -/
theorem flagsLoadCopiesFromCells : Obligations.FlagsLoadCopiesFromCells := by
  refine fun x s => ⟨fun h => ⟨by simp [decode, decodeF, flagCellOperandOk, h], ?_⟩,
    fun h => ⟨⟨.flagCellsPastSeven, by simp [decode, decodeF, flagCellOperandOk, h]⟩, ?_⟩⟩
  · refine ⟨_, exec_flagsLoad_ok h s, fun k r hkr hr => ?_, ?_, flagsLoad_changesOnly x s⟩
    · rw [readV_advance, readV_restoreLoop hr, cellOfNat_of_val_eq hkr]
    · rw [advance_pc, restoreLoop_pc]
  · rw [exec_flagsLoad_bad h, encode_flagsLoad]

end Sys2Proof.Machine
end

section
/-! Display instructions (44_display.md R201, R202, R205, R206). -/

namespace Sys2Proof.Machine

theorem setFb_changesOnly (fb : Framebuffer) (s : State) :
    ChangesOnly (fun p => ∃ cx cy, p = .pixel cx cy) s (setFb fb s) := by
  intro p hp
  cases p with
  | pixel cx cy => exact absurd ⟨cx, cy, rfl⟩ hp
  | _ => simp [SamePiece]

/-! ## Clearing (R201) -/

theorem exec_clearScreen (s : State) : exec .clearScreen s = .next (advance (setFb clearedFb s)) := rfl

theorem clearScreen_changesOnly (s : State) :
    ChangesOnly (fun p => (∃ cx cy, p = .pixel cx cy) ∨ p = .pc) s (advance (setFb clearedFb s)) :=
  ((setFb_changesOnly _ s).mono fun _ => .inl).then (advance_changesOnly _) (.inr rfl)

/-- Settles O53. -/
theorem clearScreenTurnsPixelsOff : Obligations.ClearScreenTurnsPixelsOff := fun s =>
  ⟨by decide, _, exec_clearScreen s, pixel_clearedFb, rfl, clearScreen_changesOnly s⟩

/-! ## Drawing twice (R206) -/

/-- Settles O55: inverting the covered pixels twice changes nothing, and the second drawing meets the
pixels that the first has turned on. -/
theorem drawingTwiceRestoresTheScreen : Obligations.DrawingTwiceRestoresTheScreen := by
  intro x0 y0 rows fb hlen
  have first := blit_inverts x0 y0 fb (hlen.trans (by decide))
  have second := blit_inverts x0 y0 (blit x0 y0 rows fb).1 (hlen.trans (by decide))
  refine ⟨framebuffer_ext fun cx cy => ?_, ?_⟩
  · rw [Bool.eq_iff_iff, second.pixels, first.pixels]
    tauto
  · rw [second.collided]
    simp only [first.pixels, Bool.false_eq_true, false_or]
    refine exists₂_congr fun cx cy => and_congr_right fun hcover => ?_
    simp [hcover]

/-! ## Wrapping positions (R205) -/

theorem wrapColumn_add_mul (x a : Nat) : wrapColumn (x + 64 * a) = wrapColumn x :=
  Fin.ext (Nat.add_mul_mod_self_left x 64 a)

theorem wrapRow_add_mul (y b : Nat) : wrapRow (y + 32 * b) = wrapRow y :=
  Fin.ext (Nat.add_mul_mod_self_left y 32 b)

theorem blitColumns_add_mul (x0 a : Nat) (cy : Fin 32) (row : Byte) (n : Nat) (acc : Blitted) :
    blitColumns (x0 + 64 * a) cy row n acc = blitColumns x0 cy row n acc := by
  induction n with
  | zero => rfl
  | succ c ih => simp only [blitColumns, ih, Nat.add_right_comm x0 (64 * a) c, wrapColumn_add_mul]

theorem blitRows_add_mul (x0 a b : Nat) (rows : List Byte) (y : Nat) (acc : Blitted) :
    blitRows (x0 + 64 * a) (y + 32 * b) rows acc = blitRows x0 y rows acc := by
  induction rows generalizing y acc with
  | nil => rfl
  | cons row rest ih =>
    simp only [blitRows, blitColumns_add_mul, wrapRow_add_mul, Nat.add_right_comm y (32 * b) 1, ih]

/-- Settles O56. -/
theorem spritePositionsWrap : Obligations.SpritePositionsWrap := fun x0 y0 a b rows fb =>
  blitRows_add_mul x0 a b rows y0 (fb, false)

/-! ## Drawing (R202) -/

/-- The sprite of a `DRAW` on the screen, and whether it collided. -/
def drawn (x y : Reg) (n : Fin 16) (s : State) : Blitted :=
  blit (readV s x).toNat (readV s y).toNat (dataBytes s n.val) s.fb

theorem exec_draw_ok {n : Fin 16} {s : State} (h : n.val = 0 ∨ s.iReg.toNat + n.val - 1 ≤ 0xFFF) (x y : Reg) :
    exec (.draw x y n) s =
      .next (advance (setVF (collisionFlag (drawn x y n s).2) (setFb (drawn x y n s).1 s))) :=
  checkRange_ok (by rw [memSize]; omega) _

theorem exec_draw_bad {n : Fin 16} {s : State} (hn : 1 ≤ n.val) (h : 0xFFF < s.iReg.toNat + n.val - 1)
    (x y : Reg) : exec (.draw x y n) s = .fault (.addressError (max s.iReg.toNat 0x1000)) :=
  checkRange_bad (by rw [memSize]; omega) (by omega) _

theorem draw_changesOnly (fb : Framebuffer) (flag : Byte) (s : State) :
    ChangesOnly (fun p => (∃ cx cy, p = .pixel cx cy) ∨ p = .v vf ∨ p = .pc) s
      (advance (setVF flag (setFb fb s))) :=
  (((setFb_changesOnly fb s).mono fun _ => .inl).then (setVF_changesOnly _ _) (.inr (.inl rfl))).then
    (advance_changesOnly _) (.inr (.inr rfl))

theorem dataBytes_length (s : State) (n : Nat) : (dataBytes s n).length = n := by
  simp [dataBytes]

/-- The sprite rows, named by what they hold. -/
theorem eq_dataBytes {rows : List Byte} {s : State} {n : Nat} (hlen : rows.length = n)
    (h : ∀ r < n, rows.getD r 0 = readByte s (dataAddress s r)) : rows = dataBytes s n := by
  refine List.ext_getElem (hlen.trans (dataBytes_length s n).symm) fun r hr _ => ?_
  have := h r (hlen ▸ hr)
  rw [List.getD_eq_getElem _ _ hr] at this
  simp [dataBytes, this]

theorem collisionFlag_eq (c : Bool) : collisionFlag c = if c then 1 else 0 := rfl

/-- Settles O57. -/
theorem drawXorsSpriteAndReportsCollision : Obligations.DrawXorsSpriteAndReportsCollision := by
  refine fun x y n rows s => ⟨by simp [decode], fun hrange hlen hrows => ?_, fun hn h => exec_draw_bad hn h x y⟩
  obtain rfl := eq_dataBytes hlen hrows
  have hblit : Inverts _ (s.fb, false) (drawn x y n s) :=
    blit_inverts (readV s x).toNat (readV s y).toNat s.fb (by rw [dataBytes_length]; omega)
  refine ⟨_, exec_draw_ok hrange x y, hblit.pixels, fun hcollide => ?_, fun hclear => ?_, rfl,
    draw_changesOnly _ _ s⟩
  · rw [readV_advance, readV_setVF, if_pos rfl, collisionFlag_eq, if_pos (hblit.collided.2 (.inr hcollide))]
  · have hnone : ¬ (drawn x y n s).2 = true := by
      rw [hblit.collided]
      rintro (h | ⟨cx, cy, hcover, hon⟩)
      · exact Bool.false_ne_true h
      · exact Bool.false_ne_true ((hclear cx cy hcover).symm.trans hon)
    rw [readV_advance, readV_setVF, if_pos rfl, collisionFlag_eq, if_neg hnone]

end Sys2Proof.Machine
end

section
/-! What an instruction can do, said once for all 36: it raises `execError` or completes in `execState`.
From these follow which pieces it writes, where `PC` ends, and what the inputs can reach. -/

namespace Sys2Proof.Machine

variable {s t : State} {i : Instr} {e : Fault}

/-! ## The outcome of an instruction -/

/-- The error of an access to `count` bytes at `base`, if the range is bad (R58 to R60). -/
def rangeError (base count : Nat) : Option Fault := (firstBadAddress base count).map .addressError

/-- The error that an instruction raises (R250): only eight have one. -/
def execError (s : State) : Instr → Option Fault
  | .ret => if s.stack = [] then some (.stackUnderflow s.pc) else none
  | .call _ => if s.cfg.stackLimit = some s.stack.length then some (.stackOverflow s.pc) else none
  | .draw _ _ n => rangeError s.iReg.toNat n.val
  | .bcdStore _ => rangeError s.iReg.toNat 3
  | .regDump x => rangeError s.iReg.toNat (x.val + 1)
  | .regLoad x => rangeError s.iReg.toNat (x.val + 1)
  | .flagsSave x => if x.val ≤ 7 then none else some (.decodeError (encode (.flagsSave x)))
  | .flagsLoad x => if x.val ≤ 7 then none else some (.decodeError (encode (.flagsLoad x)))
  | _ => none

/-- The state in which an instruction completes, if it raises nothing. -/
def execState (s : State) : Instr → State
  | .clearScreen => advance (setFb clearedFb s)
  | .ret => setPc ((top? s).getD 0 + 2) (dropTop s)
  | .jump nnn => setPc (immAddress nnn) s
  | .call nnn => setPc (immAddress nnn) (push s.pc s)
  | .skipEqImm x kk => skipIf (decide (readV s x = kk)) s
  | .skipNeImm x kk => skipIf (decide (readV s x ≠ kk)) s
  | .skipEqReg x y => skipIf (decide (readV s x = readV s y)) s
  | .setImm x kk => advance (setV x kk s)
  | .addImm x kk => advance (setV x (BitVec.ofNat 8 ((readV s x).toNat + kk.toNat)) s)
  | .mov x y => advance (setV x (readV s y) s)
  | .orReg x y => advance (setV x (readV s x ||| readV s y) s)
  | .andReg x y => advance (setV x (readV s x &&& readV s y) s)
  | .xorReg x y => advance (setV x (readV s x ^^^ readV s y) s)
  | .addReg x y => advance (setVF (carryFlag ((readV s x).toNat + (readV s y).toNat))
      (setV x (BitVec.ofNat 8 ((readV s x).toNat + (readV s y).toNat)) s))
  | .subReg x y => advance (subtractInto x (readV s x) (readV s y) s)
  | .shiftRight x y => shiftInto bitShiftedRight (· >>> 1) x (shiftSource s x y) s
  | .subRev x y => advance (subtractInto x (readV s y) (readV s x) s)
  | .shiftLeft x y => shiftInto bitShiftedLeft (· <<< 1) x (shiftSource s x y) s
  | .skipNeReg x y => skipIf (decide (readV s x ≠ readV s y)) s
  | .setI nnn => advance (setI (immAddress nnn) s)
  | .jumpOffset nnn => setPc (BitVec.ofNat 16 (nnn.toNat + (readV s 0).toNat)) s
  | .randAnd x kk => advance (setV x (kk &&& randomByte s) (takeRandom s))
  | .draw x y n => advance (setVF (collisionFlag (drawn x y n s).2) (setFb (drawn x y n s).1 s))
  | .skipKeyDown x => skipIf (keyPressed s (readV s x)) s
  | .skipKeyUp x => skipIf (!keyPressed s (readV s x)) s
  | .getDelay x => advance (setV x s.dt s)
  | .waitKey x => setWait (.waiting x) s
  | .setDelay x => advance (setDt (readV s x) s)
  | .setSound x => advance (setSt (readV s x) s)
  | .addToI x =>
    let sum := s.iReg.toNat + (readV s x).toNat
    advance (if s.cfg.addISetsVf then setVF (addressOverflowFlag sum) (setI (BitVec.ofNat 16 sum) s)
      else setI (BitVec.ofNat 16 sum) s)
  | .fontPtr x => advance (setI (BitVec.ofNat 16 ((readV s x).toNat * 5)) s)
  | .bcdStore x => advance (writeBytes (dataAddress s 0) (bcdDigits (readV s x)) s)
  | .regDump x => advance (bumpI x (dumpLoop x s))
  | .regLoad x => advance (bumpI x (loadLoop x s))
  | .flagsSave x => advance (saveLoop x s)
  | .flagsLoad x => advance (restoreLoop x s)

/-- An error, or else completion. -/
def outcomeOf (e : Option Fault) (t : State) : StepOutcome := e.elim (.next t) .fault

theorem checkRange_eq_outcomeOf (base count : Nat) (t : State) :
    checkRange base count (.next t) = outcomeOf (rangeError base count) t := by
  unfold checkRange rangeError
  cases firstBadAddress base count <;> rfl

/-- Everything an instruction can do. -/
theorem exec_eq_outcomeOf (i : Instr) (s : State) : exec i s = outcomeOf (execError s i) (execState s i) := by
  cases i with
  | ret =>
    simp only [exec, execRet, execError, execState, ← top?_none]
    cases top? s <;> rfl
  | call nnn =>
    simp only [exec, execCall, execError, stackFull_iff]
    split <;> rfl
  | draw | bcdStore | regDump | regLoad => exact checkRange_eq_outcomeOf _ _ _
  | flagsSave x | flagsLoad x =>
    simp only [exec, execFlagsSave, execFlagsLoad, execError, flagCellOperandOk_iff]
    split <;> rfl
  | _ => rfl

theorem exec_next_iff : exec i s = .next t ↔ execError s i = none ∧ t = execState s i := by
  rw [exec_eq_outcomeOf]
  cases execError s i <;> simp [outcomeOf, eq_comm]

theorem exec_fault_iff : exec i s = .fault e ↔ execError s i = some e := by
  rw [exec_eq_outcomeOf]
  cases execError s i <;> simp [outcomeOf]

theorem exec_ne_refused (i : Instr) (s : State) (r : Refusal) : exec i s ≠ .refused r := by
  rw [exec_eq_outcomeOf]
  cases execError s i <;> simp [outcomeOf]

theorem rangeError_none {base count : Nat} :
    rangeError base count = none ↔ base + count ≤ memSize ∨ count = 0 := by
  rw [rangeError, Option.map_eq_none_iff, firstBadAddress_none]

theorem rangeError_some {base count : Nat} : rangeError base count = some e ↔
    (memSize < base + count ∧ count ≠ 0) ∧ e = .addressError (max base memSize) := by
  simp only [rangeError, Option.map_eq_some_iff, firstBadAddress_some]
  constructor
  · rintro ⟨_, ⟨h, rfl⟩, rfl⟩
    exact ⟨h, rfl⟩
  · rintro ⟨h, rfl⟩
    exact ⟨_, ⟨h, rfl⟩, rfl⟩

/-! ## The pieces an instruction writes -/

/-- The frame of each instruction (the rules of 41 to 45; R116 for `PC`). -/
def Writes (s : State) : Instr → Piece → Prop
  | .jump _, p | .jumpOffset _, p | .skipEqImm _ _, p | .skipNeImm _ _, p | .skipEqReg _ _, p
  | .skipNeReg _ _, p | .skipKeyDown _, p | .skipKeyUp _, p => p = .pc
  | .ret, p | .call _, p => p = .stack ∨ p = .pc
  | .setImm x _, p | .addImm x _, p | .mov x _, p | .orReg x _, p | .andReg x _, p | .xorReg x _, p
  | .getDelay x, p => p = .v x ∨ p = .pc
  | .addReg x _, p | .subReg x _, p | .shiftRight x _, p | .subRev x _, p | .shiftLeft x _, p =>
    p = .v x ∨ p = .v vf ∨ p = .pc
  | .randAnd x _, p => p = .v x ∨ p = .pc ∨ p = .rndInput
  | .clearScreen, p => (∃ cx cy, p = .pixel cx cy) ∨ p = .pc
  | .draw _ _ _, p => (∃ cx cy, p = .pixel cx cy) ∨ p = .v vf ∨ p = .pc
  | .waitKey _, p => p = .wait
  | .setDelay _, p => p = .dt ∨ p = .pc
  | .setSound _, p => p = .st ∨ p = .pc
  | .setI _, p | .fontPtr _, p => p = .i ∨ p = .pc
  | .addToI _, p => p = .i ∨ p = .pc ∨ p = .v vf ∧ s.cfg.addISetsVf = true
  | .bcdStore _, p => (∃ k < 3, p = .byte (dataAddress s k)) ∨ p = .pc
  | .regDump x, p =>
    (∃ k ≤ x.val, p = .byte (dataAddress s k)) ∨ p = .pc ∨ p = .i ∧ s.cfg.memOpsIncrementI = true
  | .regLoad x, p =>
    (∃ r : Reg, r ≤ x ∧ p = .v r) ∨ p = .pc ∨ p = .i ∧ s.cfg.memOpsIncrementI = true
  | .flagsSave x, p => (∃ k : Fin 8, k.val ≤ x.val ∧ p = .flg k) ∨ p = .pc
  | .flagsLoad x, p => (∃ r : Reg, r.val ≤ 7 ∧ r ≤ x ∧ p = .v r) ∨ p = .pc

theorem addToI_changesOnly (x : Reg) (s : State) :
    ChangesOnly (Writes s (.addToI x)) s (execState s (.addToI x)) := by
  cases h : s.cfg.addISetsVf with
  | false =>
    simp only [execState, h, Bool.false_eq_true, if_false]
    exact (advance_setI_changesOnly _ s).mono fun p => Or.imp_right .inl
  | true =>
    simp only [execState, h, if_true]
    exact (advance_setVF_setI_changesOnly _ _ s).mono fun p =>
      Or.imp_right (Or.imp_right fun hp => ⟨hp, h⟩)

theorem execState_changesOnly (h : execError s i = none) : ChangesOnly (Writes s i) s (execState s i) := by
  cases i with
  | clearScreen => exact clearScreen_changesOnly s
  | ret => exact setPc_dropTop_changesOnly _ s
  | call => exact setPc_push_changesOnly _ _ s
  | jump | jumpOffset => exact setPc_changesOnly _ s
  | skipEqImm | skipNeImm | skipEqReg | skipNeReg | skipKeyDown | skipKeyUp => exact skipIf_changesOnly _ s
  | setImm | addImm | mov | orReg | andReg | xorReg | getDelay => exact advance_setV_changesOnly _ _ s
  | addReg | subReg | subRev => exact flagLast_changesOnly _ _ _ s
  | shiftRight | shiftLeft => exact shiftInto_changesOnly _ _ _ _ s
  | randAnd => exact randAnd_changesOnly _ _ s
  | draw => exact draw_changesOnly _ _ s
  | waitKey => exact setWait_changesOnly _ s
  | setDelay => exact advance_setDt_changesOnly _ s
  | setSound => exact advance_setSt_changesOnly _ s
  | setI | fontPtr => exact advance_setI_changesOnly _ s
  | addToI x => exact addToI_changesOnly x s
  | bcdStore => exact bcdStore_changesOnly _ s
  | regDump x => exact regDump_changesOnly x s
  | regLoad x => exact regLoad_changesOnly x s
  | flagsSave x => exact flagsSave_changesOnly x s
  | flagsLoad x =>
    have hx : x.val ≤ 7 := by simpa [execError] using h
    exact (flagsLoad_changesOnly x s).mono fun p => Or.imp_left fun ⟨r, hr, hp⟩ =>
      ⟨r, (Fin.le_def.1 hr).trans hx, hr, hp⟩

/-- The frame of every instruction that completes. -/
theorem exec_changesOnly (h : exec i s = .next t) : ChangesOnly (Writes s i) s t := by
  obtain ⟨herr, rfl⟩ := exec_next_iff.1 h
  exact execState_changesOnly herr

/-- A piece that differs is one of those written. -/
theorem ChangesOnly.written_of_ne {written : Piece → Prop} {p : Piece} (h : ChangesOnly written s t)
    (hne : ¬ SamePiece s t p) : written p :=
  by_contra fun hp => hne (h p hp)

/-! Which instructions write which piece: the frames read the other way (R22 to R31). -/

theorem writes_stack : Writes s i .stack → i = .ret ∨ ∃ nnn, i = .call nnn := by
  cases i <;> simp [Writes]

theorem writes_flg {k : Fin 8} : Writes s i (.flg k) → ∃ x, i = .flagsSave x := by
  cases i <;> simp [Writes]

theorem writes_dt : Writes s i .dt → ∃ x, i = .setDelay x := by
  cases i <;> simp [Writes]

theorem writes_st : Writes s i .st → ∃ x, i = .setSound x := by
  cases i <;> simp [Writes]

theorem writes_wait : Writes s i .wait → ∃ x, i = .waitKey x := by
  cases i <;> simp [Writes]

theorem writes_pixel {cx : Fin 64} {cy : Fin 32} :
    Writes s i (.pixel cx cy) → i = .clearScreen ∨ ∃ x y n, i = .draw x y n := by
  cases i <;> simp [Writes]

theorem writes_byte {a : Nat} : Writes s i (.byte a) → (∃ x, i = .bcdStore x) ∨ ∃ x, i = .regDump x := by
  cases i <;> simp [Writes]

theorem writes_i : Writes s i .i → (∃ nnn, i = .setI nnn) ∨ (∃ x, i = .addToI x) ∨ (∃ x, i = .fontPtr x) ∨
    (s.cfg.memOpsIncrementI = true ∧ ((∃ x, i = .regDump x) ∨ ∃ x, i = .regLoad x)) := by
  cases i <;> simp [Writes]

theorem not_writes_params : ¬ Writes s i .params := by
  cases i <;> simp [Writes]

theorem not_writes_keyInput : ¬ Writes s i .keyInput := by
  cases i <;> simp [Writes]

theorem writes_rndInput : Writes s i .rndInput → ∃ x kk, i = .randAnd x kk := by
  cases i <;> simp [Writes]

theorem writes_vf : Writes s i (.v vf) →
    (∃ x y, i = .addReg x y ∨ i = .subReg x y ∨ i = .shiftRight x y ∨ i = .subRev x y ∨ i = .shiftLeft x y) ∨
    (∃ x y n, i = .draw x y n) ∨
    (s.cfg.addISetsVf = true ∧ ∃ x, i = .addToI x) ∨
    (∃ kk, i = .setImm vf kk ∨ i = .addImm vf kk ∨ i = .randAnd vf kk) ∨
    (∃ y, i = .mov vf y ∨ i = .orReg vf y ∨ i = .andReg vf y ∨ i = .xorReg vf y) ∨
    i = .getDelay vf ∨ i = .regLoad vf := by
  cases i with
  | regLoad x =>
    have hlast : ∀ x : Reg, vf ≤ x → x = vf := by decide
    simpa [Writes] using hlast x
  | flagsLoad x =>
    have hvf : ¬ vf.val ≤ 7 := by decide
    simp [Writes, hvf]
  | _ => simp [Writes, eq_comm (a := vf)]

theorem exec_cfg (h : exec i s = .next t) : t.cfg = s.cfg := exec_changesOnly h .params not_writes_params

/-- Settles O14. -/
theorem onlyTheListedInstrsWriteEachPiece : Obligations.OnlyTheListedInstrsWriteEachPiece := by
  intro i s t h
  have frame := exec_changesOnly h
  have hkeys : t.keyQueue = s.keyQueue ∧ t.keyDraws = s.keyDraws := frame .keyInput not_writes_keyInput
  exact ⟨fun hne => writes_stack (frame.written_of_ne (p := .stack) hne),
    fun k hne => writes_flg (frame.written_of_ne (p := .flg k) hne),
    fun hne => writes_dt (frame.written_of_ne (p := .dt) hne),
    fun hne => writes_st (frame.written_of_ne (p := .st) hne),
    fun hne => writes_wait (frame.written_of_ne (p := .wait) hne),
    fun cx cy hne => writes_pixel (frame.written_of_ne (p := .pixel cx cy) hne),
    fun a hne => writes_byte (frame.written_of_ne (p := .byte a) hne),
    fun hne => writes_i (frame.written_of_ne (p := .i) hne),
    exec_cfg h, hkeys.1, hkeys.2,
    fun hne => writes_rndInput (frame.written_of_ne (p := .rndInput) (not_and_or.2 hne))⟩

/-- Settles O15. -/
theorem onlyTheListedInstrsWriteVF : Obligations.OnlyTheListedInstrsWriteVF := fun _ _ _ h hne =>
  writes_vf ((exec_changesOnly h).written_of_ne (p := .v vf) hne)

/-! ## Where `PC` ends (R114 to R116) -/

/-- `PC` after an instruction: those of R116's list by name, two bytes on for all others. -/
def pcAfter (s : State) : Instr → Word
  | .jump nnn | .call nnn => immAddress nnn
  | .jumpOffset nnn => BitVec.ofNat 16 (nnn.toNat + (readV s 0).toNat)
  | .ret => (top? s).getD 0 + 2
  | .waitKey _ => s.pc
  | .skipEqImm x kk => if readV s x = kk then s.pc + 4 else s.pc + 2
  | .skipNeImm x kk => if readV s x = kk then s.pc + 2 else s.pc + 4
  | .skipEqReg x y => if readV s x = readV s y then s.pc + 4 else s.pc + 2
  | .skipNeReg x y => if readV s x = readV s y then s.pc + 2 else s.pc + 4
  | .skipKeyDown x => if keyPressed s (readV s x) then s.pc + 4 else s.pc + 2
  | .skipKeyUp x => if keyPressed s (readV s x) then s.pc + 2 else s.pc + 4
  | _ => s.pc + 2

theorem execState_pc (s : State) (i : Instr) : (execState s i).pc = pcAfter s i := by
  cases i with
  | skipEqImm | skipEqReg => exact skipIf_decide_pc _ s
  | skipNeImm | skipNeReg => exact skipIf_decide_not_pc _ s
  | skipKeyDown => exact skipIf_pc s _
  | skipKeyUp x =>
    refine (skipIf_pc s _).trans ?_
    cases h : keyPressed s (readV s x) <;> simp [pcAfter, h]
  | addToI =>
    simp only [execState, pcAfter, advance_pc]
    split <;> rfl
  | bcdStore | regDump | regLoad | flagsSave | flagsLoad => simp [execState, pcAfter]
  | _ => rfl

theorem exec_pc (h : exec i s = .next t) : t.pc = pcAfter s i := by
  obtain ⟨-, rfl⟩ := exec_next_iff.1 h
  exact execState_pc s i

/-- Settles O16. -/
theorem plainInstrsAdvanceByTwo : Obligations.PlainInstrsAdvanceByTwo := by
  intro i s t h hjump hret hwait himm hreg
  rw [exec_pc h]
  cases i with
  | jump nnn => exact absurd rfl (hjump nnn).1
  | jumpOffset nnn => exact absurd rfl (hjump nnn).2.1
  | call nnn => exact absurd rfl (hjump nnn).2.2
  | ret => exact absurd rfl hret
  | waitKey x => exact absurd rfl (hwait x).1
  | skipKeyDown x => exact absurd rfl (hwait x).2.1
  | skipKeyUp x => exact absurd rfl (hwait x).2.2
  | skipEqImm x kk => exact absurd rfl (himm x kk).1
  | skipNeImm x kk => exact absurd rfl (himm x kk).2
  | skipEqReg x y => exact absurd rfl (hreg x y).1
  | skipNeReg x y => exact absurd rfl (hreg x y).2
  | _ => rfl

end Sys2Proof.Machine
end

section
/-! The inputs (40_execution_cycle.md R121; 45_input_timers.md R227). Replacing what the host has lined up
commutes with every instruction that does not read it. -/

namespace Sys2Proof.Machine

variable {s t : State} {i : Instr}

/-- Other key snapshots and other random bytes; an input that is not given stays as it is. -/
def withInputs (keys : Option (List (BitVec 16) × Nat)) (bytes : Option (List Byte × Nat)) (s : State) : State :=
  { s with
    keyQueue := (keys.map Prod.fst).getD s.keyQueue
    keyDraws := (keys.map Prod.snd).getD s.keyDraws
    rndQueue := (bytes.map Prod.fst).getD s.rndQueue
    rndDraws := (bytes.map Prod.snd).getD s.rndDraws }

/-- The two key skips (R227). -/
def ReadsKeys (i : Instr) : Prop := ∃ x, i = .skipKeyDown x ∨ i = .skipKeyUp x

/-- `RAND_AND` (R121). -/
def ReadsRandom (i : Instr) : Prop := ∃ x kk, i = .randAnd x kk

section
variable (keys : Option (List (BitVec 16) × Nat)) (bytes : Option (List Byte × Nat))

theorem withInputs_cfg (s : State) : (withInputs keys bytes s).cfg = s.cfg := rfl

theorem skipIf_withInputs (c : Bool) (s : State) :
    skipIf c (withInputs keys bytes s) = withInputs keys bytes (skipIf c s) := by
  cases c <;> rfl

theorem bumpI_withInputs (x : Reg) (s : State) :
    bumpI x (withInputs keys bytes s) = withInputs keys bytes (bumpI x s) := by
  by_cases h : s.cfg.memOpsIncrementI = true
  · simp only [bumpI, withInputs_cfg, h, if_true]; rfl
  · simp only [bumpI, withInputs_cfg, h]; rfl

theorem writeBytes_withInputs (l : List Byte) (a : Nat) (s : State) :
    writeBytes a l (withInputs keys bytes s) = withInputs keys bytes (writeBytes a l s) := by
  induction l generalizing a s with
  | nil => rfl
  | cons b rest ih => exact ih (a + 1) (writeByte a b s)

/-- A loop commutes with it if each of its steps does. -/
theorem ascending_withInputs {n : Nat} {body : Nat → State → State}
    (h : ∀ k s, body k (withInputs keys bytes s) = withInputs keys bytes (body k s)) (s : State) :
    ascending n body (withInputs keys bytes s) = withInputs keys bytes (ascending n body s) := by
  induction n with
  | zero => rfl
  | succ n ih => rw [ascending, ih, h, ascending]

theorem dumpLoop_withInputs (x : Reg) (s : State) :
    dumpLoop x (withInputs keys bytes s) = withInputs keys bytes (dumpLoop x s) :=
  ascending_withInputs keys bytes (by intros; rfl) s

theorem loadLoop_withInputs (x : Reg) (s : State) :
    loadLoop x (withInputs keys bytes s) = withInputs keys bytes (loadLoop x s) :=
  ascending_withInputs keys bytes (by intros; rfl) s

theorem saveLoop_withInputs (x : Reg) (s : State) :
    saveLoop x (withInputs keys bytes s) = withInputs keys bytes (saveLoop x s) :=
  ascending_withInputs keys bytes (by intros; rfl) s

theorem restoreLoop_withInputs (x : Reg) (s : State) :
    restoreLoop x (withInputs keys bytes s) = withInputs keys bytes (restoreLoop x s) :=
  ascending_withInputs keys bytes (by intros; rfl) s

theorem execError_withInputs (s : State) (i : Instr) :
    execError (withInputs keys bytes s) i = execError s i := by
  cases i <;> rfl

theorem execState_withInputs (hk : ReadsKeys i → keys = none) (hr : ReadsRandom i → bytes = none) (s : State) :
    execState (withInputs keys bytes s) i = withInputs keys bytes (execState s i) := by
  cases i with
  | skipEqImm | skipNeImm | skipEqReg | skipNeReg => exact skipIf_withInputs keys bytes _ s
  | skipKeyDown x =>
    obtain rfl := hk ⟨x, .inl rfl⟩
    exact skipIf_withInputs none bytes _ s
  | skipKeyUp x =>
    obtain rfl := hk ⟨x, .inr rfl⟩
    exact skipIf_withInputs none bytes _ s
  | randAnd x kk =>
    obtain rfl := hr ⟨x, kk, rfl⟩
    rfl
  | addToI x =>
    by_cases h : s.cfg.addISetsVf = true
    · simp only [execState, withInputs_cfg, h, if_true]; rfl
    · simp only [execState, withInputs_cfg, h]; rfl
  | bcdStore x => exact congrArg advance (writeBytes_withInputs keys bytes _ _ s)
  | regDump x =>
    exact congrArg advance
      ((congrArg (bumpI x) (dumpLoop_withInputs keys bytes x s)).trans (bumpI_withInputs keys bytes x _))
  | regLoad x =>
    exact congrArg advance
      ((congrArg (bumpI x) (loadLoop_withInputs keys bytes x s)).trans (bumpI_withInputs keys bytes x _))
  | flagsSave x => exact congrArg advance (saveLoop_withInputs keys bytes x s)
  | flagsLoad x => exact congrArg advance (restoreLoop_withInputs keys bytes x s)
  | _ => rfl

/-- Noninterference: inputs that an instruction does not read make no difference to it, and it leaves
them as they are. -/
theorem exec_withInputs (h : exec i s = .next t) (hk : ReadsKeys i → keys = none)
    (hr : ReadsRandom i → bytes = none) :
    exec i (withInputs keys bytes s) = .next (withInputs keys bytes t) := by
  obtain ⟨herr, rfl⟩ := exec_next_iff.1 h
  exact exec_next_iff.2 ⟨(execError_withInputs keys bytes s i).trans herr,
    (execState_withInputs keys bytes hk hr s).symm⟩

end

/-- Settles O12. -/
theorem inputsReachOnlyTheirReaders : Obligations.InputsReachOnlyTheirReaders := by
  refine fun i s t h => ⟨fun hkeys keys draws => ?_, fun hrandom bytes draws => ?_⟩
  · refine exec_withInputs (some (keys, draws)) none h ?_ fun _ => rfl
    rintro ⟨x, rfl | rfl⟩
    · exact absurd rfl (hkeys x).1
    · exact absurd rfl (hkeys x).2
  · refine exec_withInputs none (some (bytes, draws)) h (fun _ => rfl) ?_
    rintro ⟨x, kk, rfl⟩
    exact absurd rfl (hrandom x kk)

end Sys2Proof.Machine
end

section
/-! The step (40_execution_cycle.md R111 to R117; 60_exceptions.md R250 to R260): what it fetches, which
errors it raises, and its two still cases. -/

namespace Sys2Proof.Machine

variable {s t : State} {e : Fault}

/-! ## Fetching (R112) -/

/-- The word that a fetch in range reads: the two bytes at `PC`, high byte first. -/
def fetchedWord (s : State) : Word := wordOfBytes (readByte s s.pc.toNat) (readByte s (s.pc.toNat + 1))

theorem eq_fetchedWord {w : Word} : w = fetchedWord s ↔
    w.toNat = (readByte s s.pc.toNat).toNat * 256 + (readByte s (s.pc.toNat + 1)).toNat := by
  rw [← BitVec.toNat_inj, fetchedWord, wordOfBytes_toNat]

/-- Settles O6. -/
theorem stepRunsTheDecodedInstr : Obligations.StepRunsTheDecodedInstr := by
  intro s w i hrun hpc hw hdec
  obtain rfl := eq_fetchedWord.2 hw
  have hstep := step_running hrun (fetchDecode_ok.2 ⟨hpc, hdec⟩)
  refine ⟨fun t ht => ⟨takeKeys t, ?_, rfl, rfl, takeKeys_changesOnly t⟩, fun e he => ?_, exec_ne_refused i s⟩
  · rw [hstep, ht, finishStep]
  · rw [hstep, he, finishStep]

theorem step_rejected (hrun : s.wait = .running) (hpc : s.pc.toNat ≤ 0xFFE)
    (h : IsRejected (decode (fetchedWord s))) : step s = .fault (.decodeError (fetchedWord s)) := by
  obtain ⟨r, hr⟩ := h
  exact step_running_error hrun (fetchDecode_error.2 (.inr ⟨hpc, r, hr, rfl⟩))

/-- Settles O8: a word that decodes selects its instruction's row. -/
theorem unmatchedWordRaisesDecodeError : Obligations.UnmatchedWordRaisesDecodeError := by
  intro s w hrun hpc hw hnone
  obtain rfl := eq_fetchedWord.2 hw
  cases hdec : decode (fetchedWord s) with
  | instr i => exact absurd (decode_selects_rowOf hdec) (hnone _ (rowOf_mem_opcodeTable i))
  | rejected r => exact step_rejected hrun hpc ⟨r, hdec⟩

/-! ## Placing an instruction (log entry 7) -/

/-- The state in which a placed word is stored: running, `PC` where a fetch succeeds. -/
def fetchReady (s : State) : State :=
  if fetchable (setWait .running s) then setWait .running s else setPc 0x200 (setWait .running s)

theorem placeWord_eq (w : Word) (s : State) :
    placeWord w s = writeBytes (fetchReady s).pc.toNat [highByte w, lowByte w] (fetchReady s) := rfl

theorem fetchable_iff : fetchable s = true ↔ s.pc.toNat ≤ 0xFFE := by
  rw [fetchable, Option.isNone_iff_eq_none, firstBadAddress_none, memSize]
  omega

theorem fetchReady_wait (s : State) : (fetchReady s).wait = .running := by
  unfold fetchReady
  split <;> rfl

theorem fetchReady_pc_le (s : State) : (fetchReady s).pc.toNat ≤ 0xFFE := by
  unfold fetchReady
  split
  · exact fetchable_iff.1 ‹_›
  · rw [setPc_pc]
    decide

theorem fetchReady_pc (h : s.pc.toNat ≤ 0xFFE) : (fetchReady s).pc = s.pc := by
  have hf : fetchable (setWait .running s) = true := fetchable_iff.2 h
  rw [fetchReady, if_pos hf, setWait_pc]

theorem fetchReady_changesOnly (s : State) :
    ChangesOnly (fun p => p = .wait ∨ p = .pc) s (fetchReady s) := by
  have hrun := (setWait_changesOnly .running s).mono (written' := fun p => p = .wait ∨ p = .pc) fun _ => .inl
  unfold fetchReady
  split
  · exact hrun
  · exact hrun.then (setPc_changesOnly _ _) (.inr rfl)

@[simp] theorem placeWord_pc (w : Word) (s : State) : (placeWord w s).pc = (fetchReady s).pc := by
  rw [placeWord_eq, writeBytes_pc]

theorem fetchedWord_placeWord (w : Word) (s : State) : fetchedWord (placeWord w s) = w := by
  rw [fetchedWord, placeWord_pc, placeWord_eq, readByte_writeBytes, readByte_writeBytes, if_pos (by simp),
    if_pos (by simp), Nat.sub_self, Nat.add_sub_cancel_left]
  exact wordOfBytes_bytes w

theorem placeWord_changesOnly (w : Word) (s : State) :
    ChangesOnly (fun p => p = .wait ∨ p = .pc ∨ p = .byte (placeWord w s).pc.toNat ∨
      p = .byte ((placeWord w s).pc.toNat + 1)) s (placeWord w s) := by
  rw [placeWord_pc]
  refine ((fetchReady_changesOnly s).mono fun p hp => hp.imp_right .inl).trans
    ((writeBytes_changesOnly _ _ _).mono ?_)
  rintro p ⟨k, hk, rfl⟩
  have hk : k < 2 := hk
  obtain rfl | rfl : k = 0 ∨ k = 1 := by omega
  · exact .inr (.inr (.inl rfl))
  · exact .inr (.inr (.inr rfl))

theorem ofNat_toNat_mod (w : Word) : BitVec.ofNat 16 (w.toNat % 2 ^ 16) = w := by
  rw [Nat.mod_eq_of_lt w.isLt, BitVec.ofNat_toNat, BitVec.setWidth_eq]

theorem withFetchWord_eq (w : Word) (s : State) : s.withFetchWord 16 w.toNat = placeWord w s := by
  rw [State.withFetchWord, ofNat_toNat_mod]

theorem decodeTableWord_encode {i : Instr} (hwf : WellFormed i) :
    decodeTableWord 16 (encode i).toNat = some i := by
  simp only [decodeTableWord, ofNat_toNat_mod, decodeBytes, wordOfBytes_bytes,
    decodeOfEncodeGivesInstrBack i hwf]

/-- Settles O7. -/
theorem placedWordIsFetchedNext : Obligations.PlacedWordIsFetchedNext := by
  refine fun s i hwf => ⟨decodeTableWord_encode hwf, _, withFetchWord_eq (encode i) s, ?_, ?_, fun h => ?_,
    placeWord_changesOnly (encode i) s⟩
  · rw [placeWord_eq, writeBytes_wait, fetchReady_wait]
  · refine fetchDecode_ok.2 ⟨?_, ?_⟩
    · rw [placeWord_pc]
      exact fetchReady_pc_le s
    · exact (congrArg decode (fetchedWord_placeWord (encode i) s)).trans (decodeOfEncodeGivesInstrBack i hwf)
  · rw [placeWord_pc, fetchReady_pc h]

/-! ## Polling (R117, R225) -/

theorem pollKeys_none (h : lowestKeyDown s = none) (r : Reg) : pollKeys r s = s := by
  simp only [pollKeys, h]

theorem pollKeys_some {k : Nat} (h : lowestKeyDown s = some k) (r : Reg) :
    pollKeys r s = setWait .running (advance (setV r (BitVec.ofNat 8 k) s)) := by
  simp only [pollKeys, h]

/-- A poll with no key down. -/
theorem step_blocked {r : Reg} (hwait : s.wait = .waiting r)
    (h : ∀ k < 16, (keySnapshot s).getLsbD k = false) : step s = .next (takeKeys s) := by
  rw [step_waiting hwait, pollKeys_none (lowestKeyDown_none.2 h)]

theorem pollKeys_some_changesOnly (r : Reg) (b : Byte) (s : State) :
    ChangesOnly (fun p => p = .v r ∨ p = .pc ∨ p = .wait ∨ p = .keyInput) s
      (takeKeys (setWait .running (advance (setV r b s)))) :=
  ((((setV_changesOnly r b s).mono fun _ => .inl).then (advance_changesOnly _) (.inr (.inl rfl))).then
    (setWait_changesOnly _ _) (.inr (.inr (.inl rfl)))).then (takeKeys_changesOnly _) (.inr (.inr (.inr rfl)))

/-- Settles O9. -/
theorem waitingStepPollsKeys : Obligations.WaitingStepPollsKeys := by
  refine fun s r hwait => ⟨fun hnone => ⟨_, step_blocked hwait hnone, rfl, rfl, takeKeys_changesOnly s⟩,
    fun k hk hdown hlowest => ?_⟩
  have hstep := step_waiting hwait
  rw [pollKeys_some (lowestKeyDown_some.2 ⟨hk, hdown, hlowest⟩)] at hstep
  refine ⟨_, hstep, ?_, rfl, rfl, rfl, rfl, pollKeys_some_changesOnly r _ s⟩
  rw [readV_takeKeys, readV_setWait, readV_advance_setV, BitVec.toNat_ofNat, Nat.mod_eq_of_lt (by omega)]

/-! ## A jump to itself (R304) -/

theorem setPc_self (s : State) : setPc s.pc s = s := rfl

/-- Settles O27. -/
theorem terminalStateStays : Obligations.TerminalStateStays := by
  rintro s ⟨hrun, nnn, hfetch, htarget⟩
  have hpc : immAddress nnn = s.pc := BitVec.eq_of_toNat_eq ((immAddress_toNat nnn).trans htarget)
  refine ⟨takeKeys s, ?_, rfl, rfl, takeKeys_changesOnly s⟩
  rw [step_running hrun hfetch, exec_jump, hpc, setPc_self, finishStep]

/-! ## Errors (R250, R260) -/

theorem step_ne_refused (s : State) (r : Refusal) : step s ≠ .refused r := by
  intro h
  cases hwait : s.wait with
  | waiting x =>
    rw [step_waiting hwait] at h
    cases h
  | running =>
    cases hfetch : fetchDecode s with
    | error e =>
      rw [step_running_error hwait hfetch] at h
      cases h
    | ok i =>
      rw [step_running hwait hfetch] at h
      cases herr : execError s i <;> simp [exec_eq_outcomeOf, herr, outcomeOf, finishStep] at h

/-- A step raises what its fetch raises, else what its instruction raises. -/
theorem step_fault_iff : step s = .fault e ↔ s.wait = .running ∧
    (fetchDecode s = .error e ∨ ∃ i, fetchDecode s = .ok i ∧ execError s i = some e) := by
  constructor
  · intro h
    obtain ⟨hrun, hf | ⟨i, hf, hexec⟩⟩ := step_fault_cases h
    · exact ⟨hrun, .inl hf⟩
    · exact ⟨hrun, .inr ⟨i, hf, exec_fault_iff.1 hexec⟩⟩
  · rintro ⟨hrun, hf | ⟨i, hf, herr⟩⟩
    · exact step_running_error hrun hf
    · rw [step_running hrun hf, exec_fault_iff.2 herr, finishStep]

/-- The errors of the instructions that words decode to: the flag-cell transfers have none, since their
words have `x` at most 7. -/
theorem decoded_execError_iff {w : Word} : (∃ i, decode w = .instr i ∧ execError s i = some e) ↔
    (decode w = .instr .ret ∧ s.stack = [] ∧ e = .stackUnderflow s.pc ∨
      (∃ nnn, decode w = .instr (.call nnn)) ∧ s.cfg.stackLimit = some s.stack.length ∧
        e = .stackOverflow s.pc ∨
      (∃ x y n, decode w = .instr (.draw x y n) ∧ 1 ≤ n.val ∧ 0xFFF < s.iReg.toNat + n.val - 1) ∧
        e = .addressError (max s.iReg.toNat 0x1000) ∨
      (∃ x, decode w = .instr (.bcdStore x) ∧ 0xFFF < s.iReg.toNat + 2) ∧
        e = .addressError (max s.iReg.toNat 0x1000) ∨
      (∃ x, (decode w = .instr (.regDump x) ∨ decode w = .instr (.regLoad x)) ∧
        0xFFF < s.iReg.toNat + x.val) ∧
        e = .addressError (max s.iReg.toNat 0x1000)) := by
  cases hdec : decode w with
  | rejected r => simp
  | instr i =>
    have hwf := (encodeOfDecodeGivesWordBack w i hdec).1
    simp only [Decoded.instr.injEq, exists_eq_left']
    cases i with
    | flagsSave x => simp [execError, wellFormed_flagsSave.1 hwf]
    | flagsLoad x => simp [execError, wellFormed_flagsLoad.1 hwf]
    | ret | call => simp [execError, eq_comm]
    | draw x y n => simp [execError, rangeError_some, memSize]; omega
    | bcdStore x => simp [execError, rangeError_some, memSize]; omega
    | regDump x => simp [execError, rangeError_some, memSize]; omega
    | regLoad x => simp [execError, rangeError_some, memSize]; omega
    | _ => simp [execError]

/-- Settles O10. -/
theorem stepErrorsAreExactlyTheListed : Obligations.StepErrorsAreExactlyTheListed := by
  refine ⟨step_ne_refused, fun s e => ?_⟩
  simp only [← eq_fetchedWord, exists_eq_left, ← decoded_execError_iff]
  rw [step_fault_iff, fetchDecode_error]
  simp only [fetchDecode_ok]
  refine and_congr_right fun _ => ?_
  constructor
  · rintro ((⟨hpc, rfl⟩ | ⟨hpc, r, hr, rfl⟩) | ⟨i, ⟨hpc, hi⟩, herr⟩)
    · exact .inl ⟨hpc, rfl⟩
    · exact .inr ⟨hpc, .inl ⟨⟨r, hr⟩, rfl⟩⟩
    · exact .inr ⟨hpc, .inr ⟨i, hi, herr⟩⟩
  · rintro (⟨hpc, rfl⟩ | ⟨hpc, ⟨⟨r, hr⟩, rfl⟩ | ⟨i, hi, herr⟩⟩)
    · exact .inl (.inl ⟨hpc, rfl⟩)
    · exact .inl (.inr ⟨hpc, r, hr, rfl⟩)
    · exact .inr ⟨i, ⟨hpc, hi⟩, herr⟩

/-- Settles O11: the list of errors does not mention the inputs. -/
theorem errorsIgnoreTheInputs : Obligations.ErrorsIgnoreTheInputs := fun s e _ _ _ _ h =>
  (stepErrorsAreExactlyTheListed.2 _ e).2 ((stepErrorsAreExactlyTheListed.2 s e).1 h)

end Sys2Proof.Machine
end

section
/-! The invariant of Safety.lean: each instruction keeps it, so each step does (10_state.md R24 to R26). -/

namespace Sys2Proof.Machine

variable {s t : State} {i : Instr}

/-! ## Memory stays canonical -/

theorem dumpLoop_wf {x : Reg} (h : Memory.wf s.cfg.font s.mem) (hx : s.iReg.toNat + (x.val + 1) ≤ memSize) :
    Memory.wf s.cfg.font (dumpLoop x s).mem := by
  unfold dumpLoop
  refine (ascending_keeps (fun u => (u.iReg = s.iReg ∧ u.cfg = s.cfg) ∧ Memory.wf s.cfg.font u.mem) _ _ s
    ?_ ⟨⟨rfl, rfl⟩, h⟩).2
  rintro k u hk ⟨⟨hi, hcfg⟩, hwf⟩
  refine ⟨⟨hi, hcfg⟩, ?_⟩
  rw [writeByte_mem, hcfg]
  exact Memory.wf_write hwf (by rw [dataAddress, hi]; omega) _

@[simp] theorem loadLoop_mem (x : Reg) (s : State) : (loadLoop x s).mem = s.mem :=
  ascending_keeps (fun u => u.mem = s.mem) _ _ s (fun _ _ _ hu => hu) rfl

@[simp] theorem saveLoop_mem (x : Reg) (s : State) : (saveLoop x s).mem = s.mem :=
  ascending_keeps (fun u => u.mem = s.mem) _ _ s (fun _ _ _ hu => hu) rfl

@[simp] theorem restoreLoop_mem (x : Reg) (s : State) : (restoreLoop x s).mem = s.mem :=
  ascending_keeps (fun u => u.mem = s.mem) _ _ s (fun _ _ _ hu => hu) rfl

/-- Only `BCD_STORE` and `REG_DUMP` write memory, within the range that they have checked. -/
theorem execState_wf (h : Memory.wf s.cfg.font s.mem) (herr : execError s i = none) :
    Memory.wf s.cfg.font (execState s i).mem := by
  cases i with
  | bcdStore x =>
    have hrange := (rangeError_none.1 herr).resolve_right (by decide)
    exact wf_writeBytes _ _ s h hrange
  | regDump x =>
    have hrange := (rangeError_none.1 herr).resolve_right (Nat.succ_ne_zero _)
    simpa only [execState, advance_mem, bumpI_mem] using dumpLoop_wf h hrange
  | skipEqImm | skipNeImm | skipEqReg | skipNeReg | skipKeyDown | skipKeyUp =>
    simpa only [execState, skipIf_mem] using h
  | addToI =>
    simp only [execState, advance_mem]
    split <;> exact h
  | regLoad => simpa only [execState, advance_mem, bumpI_mem, loadLoop_mem] using h
  | flagsSave => simpa only [execState, advance_mem, saveLoop_mem] using h
  | flagsLoad => simpa only [execState, advance_mem, restoreLoop_mem] using h
  | _ => exact h

/-! ## The stack -/

/-- Everything an instruction can do to the stack: nothing, pop, or push where there is room. -/
theorem execState_stack_cases (herr : execError s i = none) :
    (execState s i).stack = s.stack ∨ (execState s i).stack = s.stack.dropLast ∨
    ((execState s i).stack = s.stack ++ [s.pc] ∧ s.cfg.stackLimit ≠ some s.stack.length) := by
  by_cases hsame : (execState s i).stack = s.stack
  · exact .inl hsame
  · rcases writes_stack ((execState_changesOnly herr).written_of_ne (p := .stack) hsame) with rfl | ⟨nnn, rfl⟩
    · exact .inr (.inl rfl)
    · refine .inr (.inr ⟨rfl, fun hfull => ?_⟩)
      simp [execError, hfull] at herr

/-! ## The program counter -/

theorem toNat_add_le (a b : Word) : (a + b).toNat ≤ a.toNat + b.toNat := by
  rw [BitVec.toNat_add]
  exact Nat.mod_le _ _

/-- R24: the highest is a `JUMP_OFFSET` from 0xFFF by 0xFF. -/
theorem pcAfter_le (hstack : ∀ a ∈ s.stack, a.toNat ≤ 0xFFE) (hpc : s.pc.toNat ≤ 0xFFE)
    (herr : execError s i = none) : (pcAfter s i).toNat ≤ 0x10FE := by
  have h2 : (s.pc + 2).toNat ≤ s.pc.toNat + 2 := toNat_add_le s.pc 2
  have h4 : (s.pc + 4).toNat ≤ s.pc.toNat + 4 := toNat_add_le s.pc 4
  cases i with
  | jump nnn | call nnn =>
    have := nnn.isLt
    simp only [pcAfter, immAddress_toNat]
    omega
  | jumpOffset nnn =>
    have := nnn.isLt
    have := (readV s 0).isLt
    simp only [pcAfter, jumpOffsetTarget_toNat]
    omega
  | ret =>
    have hne : top? s ≠ none := fun h => by simp [execError, top?_none.1 h] at herr
    obtain ⟨a, ha⟩ := Option.ne_none_iff_exists'.1 hne
    have hle := hstack a (List.mem_of_getLast? ha)
    have := toNat_add_le a 2
    simp only [pcAfter, ha, Option.getD_some]
    exact this.trans (by simp; omega)
  | waitKey =>
    simp only [pcAfter]
    omega
  | skipEqImm | skipNeImm | skipEqReg | skipNeReg | skipKeyDown | skipKeyUp =>
    simp only [pcAfter]
    split <;> omega
  | _ =>
    simp only [pcAfter]
    omega

/-! ## Instructions and steps -/

/-- The invariant speaks of five fields only. -/
theorem Inv.of_eq (h : Inv s) (hmem : t.mem = s.mem) (hcfg : t.cfg = s.cfg) (hstack : t.stack = s.stack)
    (hpc : t.pc = s.pc) (hwait : t.wait = s.wait) : Inv t where
  memory := by rw [hmem, hcfg]; exact h.memory
  depthBound := by rw [hcfg, hstack]; exact h.depthBound
  stackEntries := by rw [hstack]; exact h.stackEntries
  pcRange := by rw [hpc]; exact h.pcRange
  waitingPc := by rw [hpc, hwait]; exact h.waitingPc

theorem execState_inv (h : Inv s) (hrun : s.wait = .running) (hpc : s.pc.toNat ≤ 0xFFE)
    (herr : execError s i = none) : Inv (execState s i) := by
  have frame := execState_changesOnly herr
  have hcfg : (execState s i).cfg = s.cfg := frame .params not_writes_params
  have hstack := execState_stack_cases herr
  refine ⟨?memory, ?depthBound, ?stackEntries, ?pcRange, ?waitingPc⟩
  case memory =>
    rw [hcfg]
    exact execState_wf h.memory herr
  case depthBound =>
    intro limit hlimit
    rw [hcfg] at hlimit
    have hdepth := h.depthBound limit hlimit
    rcases hstack with hst | hst | ⟨hst, hroom⟩
    · rwa [hst]
    · rw [hst, List.length_dropLast]
      omega
    · have hne : limit ≠ s.stack.length := fun heq => hroom (heq ▸ hlimit)
      rw [hst, List.length_append, List.length_singleton]
      omega
  case stackEntries =>
    rcases hstack with hst | hst | ⟨hst, -⟩ <;> rw [hst]
    · exact h.stackEntries
    · exact fun a ha => h.stackEntries a (List.mem_of_mem_dropLast ha)
    · intro a ha
      rcases List.mem_append.1 ha with ha | ha
      · exact h.stackEntries a ha
      · rw [List.mem_singleton.1 ha]
        exact hpc
  case pcRange =>
    rw [execState_pc]
    exact pcAfter_le h.stackEntries hpc herr
  case waitingPc =>
    intro hwaits
    obtain ⟨x, rfl⟩ := writes_wait (frame.written_of_ne (p := .wait) fun hsame => hwaits (Eq.trans hsame hrun))
    exact hpc

theorem takeKeys_inv (h : Inv s) : Inv (takeKeys s) := h.of_eq rfl rfl rfl rfl rfl

theorem pollKeys_inv (h : Inv s) {r : Reg} (hwait : s.wait = .waiting r) : Inv (pollKeys r s) := by
  rcases pollKeys_cases r s with ⟨-, hpoll⟩ | ⟨k, -, hpoll⟩ <;> rw [hpoll]
  · exact h
  · have hpc := h.waitingPc (by simp [hwait])
    have h2 : (s.pc + 2).toNat ≤ s.pc.toNat + 2 := toNat_add_le s.pc 2
    exact
      { memory := h.memory
        depthBound := h.depthBound
        stackEntries := h.stackEntries
        pcRange := h2.trans (by omega)
        waitingPc := fun hne => absurd rfl hne }

/-- Settles O17: a step is a poll or one instruction, fetched at most at 0xFFE. -/
theorem stepKeepsTheInvariant : Obligations.StepKeepsTheInvariant := by
  intro s t hinv hstep
  rcases step_next_cases hstep with ⟨r, hwait, rfl⟩ | ⟨hrun, i, u, hfetch, hexec, rfl⟩
  · exact takeKeys_inv (pollKeys_inv hinv hwait)
  · obtain ⟨herr, rfl⟩ := exec_next_iff.1 hexec
    exact takeKeys_inv (execState_inv hinv hrun (fetchDecode_ok.1 hfetch).1 herr)

end Sys2Proof.Machine
end

section
/-! The commands (40_execution_cycle.md R110, R118 to R120; 70_reset_and_hazards.md R290 to R292). What
every step keeps, the steps of a tick keep. -/

namespace Sys2Proof.Machine

variable {s t : State} {e : Fault}

/-! ## The steps of a tick (R118, R119) -/

theorem runSteps_succ_next (h : step s = .next t) (n : Nat) : runSteps (n + 1) s = runSteps n t := by
  rw [runSteps_succ, stepCommand_done.2 h]

theorem runSteps_succ_fault (h : step s = .fault e) (n : Nat) : runSteps (n + 1) s = ⟨s, .error e⟩ := by
  rw [runSteps_succ, stepCommand_error.2 ⟨rfl, h⟩]

/-- Every step completes or raises. -/
theorem step_next_or_fault (s : State) : (∃ t, step s = .next t) ∨ ∃ e, step s = .fault e := by
  cases h : step s with
  | next t => exact .inl ⟨t, rfl⟩
  | fault e => exact .inr ⟨e, rfl⟩
  | refused r => exact absurd h (step_ne_refused s r)

/-- What every step keeps, any number of steps keeps. -/
theorem runSteps_keeps {P : State → Prop} (hstep : ∀ s t, P s → step s = .next t → P t) (n : Nat) (hs : P s) :
    P (runSteps n s).state := by
  induction n generalizing s with
  | zero => exact hs
  | succ n ih =>
    obtain ⟨t, h⟩ | ⟨e, h⟩ := step_next_or_fault s
    · rw [runSteps_succ_next h]
      exact ih (hstep s t hs h)
    · rw [runSteps_succ_fault h]
      exact hs

theorem stepCommand_keeps {P : State → Prop} (hstep : ∀ s t, P s → step s = .next t → P t) (hs : P s) :
    P (stepCommand s).state := by
  rw [← runSteps_one]
  exact runSteps_keeps hstep 1 hs

theorem runSteps_add_of_done {m : Nat} (h : runSteps m s = ⟨t, .done⟩) (n : Nat) :
    runSteps (m + n) s = runSteps n t := by
  induction m generalizing s with
  | zero =>
    cases h
    rw [Nat.zero_add]
  | succ m ih =>
    rw [Nat.succ_add]
    obtain ⟨u, hu⟩ | ⟨e, he⟩ := step_next_or_fault s
    · rw [runSteps_succ_next hu] at h ⊢
      exact ih h
    · rw [runSteps_succ_fault he] at h
      cases h

theorem runSteps_add_of_error {m : Nat} (h : runSteps m s = ⟨t, .error e⟩) (n : Nat) :
    runSteps (m + n) s = ⟨t, .error e⟩ ∧ step t = .fault e := by
  induction m generalizing s with
  | zero => cases h
  | succ m ih =>
    rw [Nat.succ_add]
    obtain ⟨u, hu⟩ | ⟨e', he⟩ := step_next_or_fault s
    · rw [runSteps_succ_next hu] at h ⊢
      exact ih h
    · rw [runSteps_succ_fault he] at h ⊢
      cases h
      exact ⟨rfl, he⟩

/-- Settles O25. -/
theorem tickStepsStopAtFirstError : Obligations.TickStepsStopAtFirstError := fun _ =>
  ⟨rfl,
    fun _ ht => ⟨runSteps_succ_next ht 0, stepCommand_done.2 ht⟩,
    fun _ he => ⟨runSteps_succ_fault he 0, stepCommand_error.2 ⟨rfl, he⟩⟩,
    fun _ n _ => ⟨fun h => runSteps_add_of_done h n, fun _ h => runSteps_add_of_error h n⟩⟩

/-! ## A tick (R118, R120) -/

theorem countDown_toNat (b : Byte) : (countDown b).toNat = b.toNat - 1 := by
  by_cases hb : b = 0
  · rw [hb]
    rfl
  · have hpos : b.toNat ≠ 0 := fun h => hb (BitVec.eq_of_toNat_eq h)
    have hlt := b.isLt
    rw [countDown, if_neg hb, BitVec.toNat_sub]
    simp
    omega

theorem countTimers_running (h : s.wait = .running) :
    countTimers s = setSt (countDown s.st) (setDt (countDown s.dt) s) := by
  simp only [countTimers, h]

theorem countTimers_waiting {r : Reg} (h : s.wait = .waiting r) : countTimers s = s := by
  simp only [countTimers, h]

theorem countTimers_changesOnly (s : State) :
    ChangesOnly (fun p => p = .dt ∨ p = .st) s (countTimers s) := by
  cases h : s.wait with
  | running =>
    rw [countTimers_running h]
    exact ((setDt_changesOnly _ s).mono fun _ => .inl).then (setSt_changesOnly _ _) (.inr rfl)
  | waiting r =>
    rw [countTimers_waiting h]
    exact .refl _ s

/-- Settles O24. -/
theorem tickCountsTimersThenSteps : Obligations.TickCountsTimersThenSteps := by
  refine fun s => ⟨fun hrun => ⟨countTimers s, rfl, ?_, ?_, countTimers_changesOnly s⟩, fun r hwait => ?_⟩
  · rw [countTimers_running hrun, setSt_dt, setDt_dt, countDown_toNat]
  · rw [countTimers_running hrun, setSt_st, countDown_toNat]
  · rw [tick, countTimers_waiting hwait]

/-- The state after `j` key snapshots have been taken and nothing else. -/
def takeKeysTimes (j : Nat) (s : State) : State :=
  { s with keyQueue := s.keyQueue.drop j, keyDraws := s.keyDraws + j }

theorem takeKeysTimes_takeKeys (j : Nat) (s : State) :
    takeKeysTimes j (takeKeys s) = takeKeysTimes (j + 1) s := by
  simp [takeKeysTimes, takeKeys, Nat.add_comm, Nat.add_left_comm]

theorem takeKeysTimes_changesOnly (j : Nat) (s : State) :
    ChangesOnly (fun p => p = .keyInput) s (takeKeysTimes j s) := by
  intro p hp
  cases p with
  | keyInput => exact absurd rfl hp
  | _ => simp [SamePiece, takeKeysTimes, readV, readByte, readFlg]

/-- Blocked steps, none of whose snapshots holds a key. -/
theorem runSteps_blocked {n : Nat} {r : Reg} (hwait : s.wait = .waiting r)
    (h : ∀ j < n, ∀ k < 16, (keySnapshot (takeKeysTimes j s)).getLsbD k = false) :
    runSteps n s = ⟨takeKeysTimes n s, .done⟩ := by
  induction n generalizing s with
  | zero => rfl
  | succ n ih =>
    have hfirst := h 0 (Nat.succ_pos n)
    rw [runSteps_succ_next (step_blocked hwait hfirst), ← takeKeysTimes_takeKeys]
    refine ih hwait fun j hj => ?_
    rw [takeKeysTimes_takeKeys]
    exact h (j + 1) (Nat.succ_lt_succ hj)

/-- Settles O26. -/
theorem blockedTickWithoutKeysChangesNothing : Obligations.BlockedTickWithoutKeysChangesNothing := by
  refine fun s r hwait hnone => ⟨_, ?_, rfl, rfl, takeKeysTimes_changesOnly s.cfg.stepsPerTick s⟩
  rw [command, tick, countTimers_waiting hwait]
  exact runSteps_blocked hwait hnone

/-! ## Construction and `reset` (R290, R291) -/

/-- Settles O21. -/
theorem constructionValues : Obligations.ConstructionValues := by
  refine fun c => ⟨_, rfl, fun x => ?_, rfl, rfl, fun a h => ?_, fun a h => ?_, rfl, rfl, rfl, fun k => ?_, rfl,
    pixel_clearedFb, rfl⟩
  · simp [readV, State.construct]
  · simp [readByte, State.construct, Memory.read, Memory.lookup, blankByte, h]
  · simp [readByte, State.construct, Memory.read, Memory.lookup, blankByte, Nat.not_lt.2 h]
  · simp [readFlg, State.construct]

theorem resetCommand_changesOnly (s : State) :
    ChangesOnly (fun p => (∃ cx cy, p = .pixel cx cy) ∨ p = .keyInput ∨ p = .rndInput)
      (State.construct s.cfg) (resetCommand s) := by
  intro p hp
  cases p with
  | pixel cx cy => exact absurd (.inl ⟨cx, cy, rfl⟩) hp
  | keyInput => exact absurd (.inr (.inl rfl)) hp
  | rndInput => exact absurd (.inr (.inr rfl)) hp
  | _ => rfl

/-- Settles O22. -/
theorem resetCommandRestoresAllButDisplay : Obligations.ResetCommandRestoresAllButDisplay := fun s =>
  ⟨_, rfl, fun _ _ => rfl, rfl, rfl, rfl, rfl, rfl, resetCommand_changesOnly s⟩

/-! ## `load` (R292) -/

theorem load_fits {bytes : List Byte} (h : bytes.length ≤ programRoom) (s : State) :
    load bytes s = ⟨writeBytes programStart bytes s, .done⟩ := if_neg (Nat.not_lt.2 h)

theorem load_too_long {bytes : List Byte} (h : programRoom < bytes.length) (s : State) :
    load bytes s = ⟨s, .error (.addressError memSize)⟩ := if_pos h

/-- Settles O23. -/
theorem loadCopiesBytesToProgramArea : Obligations.LoadCopiesBytesToProgramArea := fun bytes s =>
  ⟨fun h => ⟨_, load_fits h s, fun _ hk => readByte_writeBytes_offset hk programStart s,
    writeBytes_changesOnly bytes programStart s⟩, fun h => load_too_long h s⟩

/-! ## What every command keeps -/

theorem step_cfg (h : step s = .next t) : t.cfg = s.cfg := by
  rcases step_next_cases h with ⟨r, -, rfl⟩ | ⟨-, i, u, -, hexec, rfl⟩
  · rcases pollKeys_cases r s with ⟨-, hpoll⟩ | ⟨k, -, hpoll⟩ <;> rw [hpoll] <;> rfl
  · rw [takeKeys_cfg]
    exact exec_cfg hexec

theorem countTimers_cfg (s : State) : (countTimers s).cfg = s.cfg := countTimers_changesOnly s .params (by simp)

/-- Settles O20. -/
theorem commandsKeepTheParameters : Obligations.CommandsKeepTheParameters := by
  intro c s
  have hstep : ∀ u v, u.cfg = s.cfg → step u = .next v → v.cfg = s.cfg := fun _ _ hu h => (step_cfg h).trans hu
  cases c with
  | reset | present => rfl
  | load bytes =>
    rcases Nat.lt_or_ge programRoom bytes.length with h | h
    · rw [command, load_too_long h]
    · rw [command, load_fits h, writeBytes_cfg]
  | step => exact stepCommand_keeps hstep rfl
  | tick => exact runSteps_keeps hstep _ (countTimers_cfg s)

theorem construct_inv (c : Config) : Inv (State.construct c) where
  memory := Memory.wf_nil c.font
  depthBound := fun _ _ => Nat.zero_le _
  stackEntries := fun _ ha => absurd ha List.not_mem_nil
  pcRange := show (0x200 : Word).toNat ≤ 0x10FE by decide
  waitingPc := fun h => absurd rfl h

/-- Settles O18. -/
theorem constructionMeetsTheInvariant : Obligations.ConstructionMeetsTheInvariant :=
  ⟨construct_inv, construct_inv _⟩

theorem countTimers_inv (h : Inv s) : Inv (countTimers s) := by
  cases hw : s.wait with
  | running =>
    rw [countTimers_running hw]
    exact h.of_eq rfl rfl rfl rfl rfl
  | waiting r =>
    rw [countTimers_waiting hw]
    exact h

theorem load_inv (h : Inv s) (bytes : List Byte) : Inv (load bytes s).state := by
  rcases Nat.lt_or_ge programRoom bytes.length with hlen | hlen
  · rw [load_too_long hlen]
    exact h
  · rw [load_fits hlen]
    have hroom : programStart + bytes.length ≤ memSize := Nat.add_le_add_left hlen programStart
    exact
      { memory := by rw [writeBytes_cfg]; exact wf_writeBytes bytes programStart s h.memory hroom
        depthBound := by rw [writeBytes_cfg, writeBytes_stack]; exact h.depthBound
        stackEntries := by rw [writeBytes_stack]; exact h.stackEntries
        pcRange := by rw [writeBytes_pc]; exact h.pcRange
        waitingPc := by rw [writeBytes_wait, writeBytes_pc]; exact h.waitingPc }

theorem command_inv (c : Command) (h : Inv s) : Inv (command c s).state := by
  cases c with
  | reset => exact (construct_inv s.cfg).of_eq rfl rfl rfl rfl rfl
  | present => exact h.of_eq rfl rfl rfl rfl rfl
  | load bytes => exact load_inv h bytes
  | step => exact stepCommand_keeps stepKeepsTheInvariant h
  | tick => exact runSteps_keeps stepKeepsTheInvariant _ (countTimers_inv h)

theorem runCommands_inv (commands : List Command) (h : Inv s) : Inv (runCommands commands s) := by
  induction commands generalizing s with
  | nil => exact h
  | cons c rest ih => exact ih (command_inv c h)

/-- Settles O19. -/
theorem reachableStatesMeetTheInvariant : Obligations.ReachableStatesMeetTheInvariant := by
  rintro _ ⟨c, commands, rfl⟩
  exact runCommands_inv commands (construct_inv c)

end Sys2Proof.Machine
end
